-- ==== Sys2Proof/Word.lean ====
section
/-! DEFINITION. The bit-vector types of the RMIL block (spec/00_scope.md R8, R10). -/

namespace Sys2Proof

/-- A bit element of DMEM, EMEM or OMEM (BIT_W = 8), and one byte lane of the window (R60, R62). -/
abbrev Byte := BitVec 8

/-- An LLR or a HARQ accumulator (LLR_W = HARQ_W = 16), two's complement (R64, R65). -/
abbrev Half := BitVec 16

/-- A register, a command word or bus data (R23, R85). -/
abbrev Word := BitVec 32

end Sys2Proof
end

