-- ==== Sys2Proof/Syntax.lean ====
section
/-! DEFINITION. The commands (spec/30_encoding.md R89, spec/opcode_table.json), the fields of a command word (R86) and
the ways a word is illegal (R91, R192). -/

namespace Sys2Proof

/-- The 18 legal commands, one constructor per row of the opcode table (R89, R92). A command word carries no operand
(R93): every operand comes from the snapshot of the parameter registers. -/
inductive Instr where
  | nop
  | select
  | markf
  | rm
  | rmSkip
  | dm
  | dmCf
  | dmSkip
  | il
  | ilSkip
  | dil
  | dilSkip
  | rmil
  | rmilSkip
  | dildm
  | dildmCf
  | dildmSkip
  | clrerr
deriving DecidableEq, Repr

/-- The assembler name, `MNEMONIC[.cf][.skip]` (R95). -/
def Instr.mnemonic : Instr → String
  | .nop => "NOP"
  | .select => "SELECT"
  | .markf => "MARKF"
  | .rm => "RM"
  | .rmSkip => "RM.skip"
  | .dm => "DM"
  | .dmCf => "DM.cf"
  | .dmSkip => "DM.skip"
  | .il => "IL"
  | .ilSkip => "IL.skip"
  | .dil => "DIL"
  | .dilSkip => "DIL.skip"
  | .rmil => "RMIL"
  | .rmilSkip => "RMIL.skip"
  | .dildm => "DILDM"
  | .dildmCf => "DILDM.cf"
  | .dildmSkip => "DILDM.skip"
  | .clrerr => "CLRERR"

/-- All commands, in the table's order (R92). -/
def Instr.all : List Instr :=
  [.nop, .select, .markf, .rm, .rmSkip, .dm, .dmCf, .dmSkip, .il, .ilSkip, .dil, .dilSkip, .rmil, .rmilSkip,
   .dildm, .dildmCf, .dildmSkip, .clrerr]

/-- The details of IllegalCommand (R91, R192). -/
inductive Illegal where
  /-- OP in 0xA..0xF. -/
  | rsvOp
  /-- Bits 7:4 or 31:10 not zero. -/
  | rsvBits
  /-- CF or SKIP on an OP that does not permit it (R90). -/
  | badFlag
  /-- CF and SKIP together. -/
  | cfSkip
deriving DecidableEq, Repr

/-- The fields of a command word (R86). -/
structure Fields where
  op   : BitVec 4
  rsva : BitVec 4
  cf   : Bool
  skip : Bool
  rsvb : BitVec 22
deriving DecidableEq, Repr

/-- What the decoder answers on a word (R94). -/
inductive Decoded where
  | cmd (i : Instr)
  | illegal (d : Illegal)
deriving DecidableEq, Repr

end Sys2Proof
end

