-- ==== Sys2Proof/WellFormed.lean ====
section
/-! DEFINITION. Which field combinations are a legal command word: the four checks of spec/30_encoding.md R91 over the
fields of R86 and the flag permissions of R90. The decoder (Decode.lean) is written from R94; that the two agree is a
statement about them. -/

namespace Sys2Proof

/-- R90, column CF: DM and DILDM. -/
def Fields.permitsCf (f : Fields) : Bool := f.op == 0x4 || f.op == 0x8

/-- R90, column SKIP: RM, DM, IL, DIL, RMIL, DILDM. -/
def Fields.permitsSkip (f : Fields) : Bool :=
  f.op == 0x3 || f.op == 0x4 || f.op == 0x5 || f.op == 0x6 || f.op == 0x7 || f.op == 0x8

/-- R91: the first of the four conditions that applies, or none. -/
def Fields.illegality (f : Fields) : Option Illegal :=
  if 0xA ≤ f.op.toNat then some .rsvOp
  else if f.rsva ≠ 0 ∨ f.rsvb ≠ 0 then some .rsvBits
  else if (f.cf = true ∧ f.permitsCf = false) ∨ (f.skip = true ∧ f.permitsSkip = false) then some .badFlag
  else if f.cf = true ∧ f.skip = true then some .cfSkip
  else none

/-- A legal field combination (R91). -/
abbrev Fields.WellFormed (f : Fields) : Prop := f.illegality = none

/-- The opcode of each command (R89). -/
def Instr.op : Instr → BitVec 4
  | .nop => 0x0
  | .select => 0x1
  | .markf => 0x2
  | .rm | .rmSkip => 0x3
  | .dm | .dmCf | .dmSkip => 0x4
  | .il | .ilSkip => 0x5
  | .dil | .dilSkip => 0x6
  | .rmil | .rmilSkip => 0x7
  | .dildm | .dildmCf | .dildmSkip => 0x8
  | .clrerr => 0x9

/-- The CF flag of each command (R87). -/
def Instr.cf : Instr → Bool
  | .dmCf | .dildmCf => true
  | .nop | .select | .markf | .rm | .rmSkip | .dm | .dmSkip | .il | .ilSkip | .dil | .dilSkip | .rmil | .rmilSkip
  | .dildm | .dildmSkip | .clrerr => false

/-- The SKIP flag of each command (R87). -/
def Instr.skip : Instr → Bool
  | .rmSkip | .dmSkip | .ilSkip | .dilSkip | .rmilSkip | .dildmSkip => true
  | .nop | .select | .markf | .rm | .dm | .dmCf | .il | .dil | .rmil | .dildm | .dildmCf | .clrerr => false

/-- The fields of a command's word (R86). -/
def Instr.fields (i : Instr) : Fields := { op := i.op, rsva := 0, cf := i.cf, skip := i.skip, rsvb := 0 }

/-- A command is well formed when its fields are legal (R91). -/
abbrev Instr.WellFormed (i : Instr) : Prop := i.fields.WellFormed

end Sys2Proof
end

