-- ==== Sys2Proof/Decode.lean ====
section
/-! DEFINITION. The decoder (spec/30_encoding.md R94), total on all 32-bit words, and the encoder (R86). -/

namespace Sys2Proof

/-- The fields of a word (R86). -/
def fieldsOf (w : Word) : Fields :=
  { op := w.extractLsb' 0 4, rsva := w.extractLsb' 4 4, cf := w.getLsbD 8, skip := w.getLsbD 9,
    rsvb := w.extractLsb' 10 22 }

/-- The command of an opcode and its flags, once the checks of R94 have passed (R89). -/
def commandOf (op : BitVec 4) (cf skip : Bool) : Decoded :=
  if op = 0x0 then .cmd .nop
  else if op = 0x1 then .cmd .select
  else if op = 0x2 then .cmd .markf
  else if op = 0x3 then .cmd (if skip then .rmSkip else .rm)
  else if op = 0x4 then .cmd (if skip then .dmSkip else if cf then .dmCf else .dm)
  else if op = 0x5 then .cmd (if skip then .ilSkip else .il)
  else if op = 0x6 then .cmd (if skip then .dilSkip else .dil)
  else if op = 0x7 then .cmd (if skip then .rmilSkip else .rmil)
  else if op = 0x8 then .cmd (if skip then .dildmSkip else if cf then .dildmCf else .dildm)
  else if op = 0x9 then .cmd .clrerr
  else .illegal .rsvOp

/-- `decode(w)` (R94), in the rule's order of tests. -/
def decode (w : Word) : Decoded :=
  let op : BitVec 4 := w.extractLsb' 0 4
  let cf := w.getLsbD 8
  let skip := w.getLsbD 9
  if 0xA ≤ op.toNat then .illegal .rsvOp
  else if w.extractLsb' 4 4 ≠ 0 ∨ w.extractLsb' 10 22 ≠ 0 then .illegal .rsvBits
  else if cf = true ∧ ¬(op = 0x4 ∨ op = 0x8) then .illegal .badFlag
  else if skip = true ∧ (op = 0x0 ∨ op = 0x1 ∨ op = 0x2 ∨ op = 0x9) then .illegal .badFlag
  else if cf = true ∧ skip = true then .illegal .cfSkip
  else commandOf op cf skip

/-- `enc(OP, CF, SKIP) = OP | (CF << 8) | (SKIP << 9)` (R86). -/
def enc (op : BitVec 4) (cf skip : Bool) : Word :=
  op.setWidth 32 ||| ((BitVec.ofBool cf).setWidth 32 <<< 8) ||| ((BitVec.ofBool skip).setWidth 32 <<< 9)

/-- The word of a command (R86, R89). -/
def encode (i : Instr) : Word := enc i.op i.cf i.skip

/-- The command the decoder reads from a table word: the low `nbits` bits of `w` (bit 0 the least significant bit of
the command word, R85), the bits above them zero; a command word has 32 bits, so more than 32 are none. -/
def decodeTableWord (nbits w : Nat) : Option Instr :=
  if w % 2 ^ nbits < 2 ^ 32 then
    match decode (BitVec.ofNat 32 (w % 2 ^ nbits)) with
    | .cmd i => some i
    | .illegal _ => none
  else none

end Sys2Proof
end

