-- ==== Sys2Proof/Config.lean ====
section
/-! DEFINITION. What one implementation and its platform fix: the parameters of spec/00_scope.md R8 as one argument of
the machine, with the spec's defaults and the constraints on them (R9), and the free values: the values the spec leaves
open (spec/93_implementation_defined.md U1 to U7). -/

namespace Sys2Proof

/-- The parameters of R8, each under its own name. The machine carries them in State, so that every claim over all
states is a claim over all parameters; no step changes them. -/
structure Config where
  /-- `Z_MAX`, the largest accepted lifting size. -/
  zMax : Nat
  /-- `D_SIZE`, DMEM elements. -/
  dSize : Nat
  /-- `E_MAX`, the largest accepted E; EMEM and LMEM elements. -/
  eMax : Nat
  /-- `G_MAX`, OMEM and RMEM elements. -/
  gMax : Nat
  /-- `H_SIZE`, HMEM elements. -/
  hSize : Nat
  /-- `LLR_W`, the width of an element of RMEM and LMEM. -/
  llrW : Nat
  /-- `HARQ_W`, the width of an element of HMEM. -/
  harqW : Nat
  /-- `BIT_W`, the width of an element of DMEM, EMEM and OMEM. -/
  bitW : Nat
  /-- `K0TAB[1]`, the numerators over 66 for rv = 0..3 (R107). -/
  k0tab1 : List Nat
  /-- `K0TAB[2]`, the numerators over 50 for rv = 0..3 (R107). -/
  k0tab2 : List Nat
  /-- `NUM_ENGINES`. -/
  numEngines : Nat
  /-- `SENTINEL_RESET`, the reset value of SENTINEL (R44). -/
  sentinelReset : Byte
  /-- `BASE`, the platform address of the window (R70). -/
  base : Nat
  /-- `IRQ_LINE`, the platform line the IRQ output drives (R205). -/
  irqLine : Nat
  /-- `RESET_SIGNAL`, the platform signal that is the hardware reset input (R230). -/
  resetSignal : Nat
  /-- `WINDOW_PROTECTION`, the bus masters that the platform keeps from the window. -/
  windowProtection : List Nat
  /-- `BUS_ORDERING`, the platform delivers accesses one at a time in program order (R79). -/
  busOrdering : Bool
deriving DecidableEq, Repr

namespace Config

/-- The defaults of R8. Z_MAX, the two LLR widths, K0TAB and SENTINEL_RESET are UNVERIFIED (the spec marks them as
general knowledge), log 10 and 11; the five platform parameters are OPEN in R8 and their values here a DESIGN CHOICE,
log 12. Unsafe only for a claim that names this instance. -/
def default : Config :=
  { zMax := 384, dSize := 25344, eMax := 65536, gMax := 1048576, hSize := 405504, llrW := 16, harqW := 16, bitW := 8,
    k0tab1 := [0, 17, 33, 56], k0tab2 := [0, 13, 25, 43], numEngines := 1, sentinelReset := 0x02, base := 0, irqLine := 0,
    resetSignal := 0, windowProtection := [], busOrdering := true }

/-- The parameter sets that are a model of this spec: the constraints of R9, and what the other rules require of the
parameters they name. -/
structure Valid (c : Config) : Prop where
  /-- `66 * Z_MAX = D_SIZE` (R8, R66). -/
  dSize_eq : c.dSize = 66 * c.zMax
  dSize_le : c.dSize ≤ 2 ^ 20
  eMax_le : c.eMax ≤ 2 ^ 20
  gMax_le : c.gMax ≤ 2 ^ 20
  two_eMax_le : 2 * c.eMax ≤ 2 ^ 21
  two_gMax_le : 2 * c.gMax ≤ 2 ^ 21
  two_hSize_le : 2 * c.hSize ≤ 2 ^ 23
  zMax_pos : 1 ≤ c.zMax
  eMax_pos : 1 ≤ c.eMax
  /-- Every K0TAB entry is below N / Z (R109). -/
  k0tab1_lt : ∀ k ∈ c.k0tab1, k < 66
  k0tab2_lt : ∀ k ∈ c.k0tab2, k < 50
  /-- K0TAB is a 2 x 4 table (R107). -/
  k0tab1_length : c.k0tab1.length = 4
  k0tab2_length : c.k0tab2.length = 4
  /-- R12, R64 and R70 speak of LLRs of 16 bits. -/
  llrW_eq : c.llrW = 16
  /-- R12, R65, R70 and R137 speak of accumulators of 16 bits. -/
  harqW_eq : c.harqW = 16
  /-- R60 and R70 speak of bit elements of one byte. -/
  bitW_eq : c.bitW = 8
  /-- R17 and R47 speak of one engine. -/
  numEngines_eq : c.numEngines = 1
  /-- A model assumes that it holds (R79). -/
  busOrdering_eq : c.busOrdering = true

/-- `K0TAB[bg][rv]` (R107). The selector reads it only where BG and RV have passed their checks. -/
def k0Tab (c : Config) (bg rv : Nat) : Nat :=
  (if bg = 1 then c.k0tab1 else if bg = 2 then c.k0tab2 else []).getD rv 0

/-- The constant of register `ID` (R22). -/
def idValue : Word := 0x524D0001

/-- A FREE VALUE: the unspecified byte at window offset `addr` drawn at occasion `epoch`. It serves memory after a
hardware reset (U1, R231), the write ranges of an aborted or disturbed command (U2, U4, R232, R240) and a host access to
the ranges of the command in flight (U3, R76). No proof can see what it is. DEDUCED, log 1, 6, 7, 8; safe. -/
opaque freeByte (epoch addr : Nat) : Byte

/-- A FREE VALUE: how many host steps come before the completion of a command accepted at occasion `n` (U6, U7, R250).
DESIGN CHOICE, log 3; safe. -/
opaque latency (n : Nat) : Nat

end Config

end Sys2Proof
end

