-- ==== Sys2Proof/Machine/State.lean ====
section
/-! DEFINITION. The state of the RMIL block (spec/10_state.md R20, R26, R47; spec/20_memory.md R60), the reasons a run
stops, and the state after a hardware reset (R52, R230, R233). -/

namespace Sys2Proof.Machine

/-- The twelve parameter registers and SENTINEL (R24, R26, R44). The same structure is the snapshot `P` (R47). -/
structure Params where
  bg       : Word
  z        : Word
  c        : Word
  f        : Word
  foff     : Word
  tbslbrm  : Word
  rv       : Word
  qm       : Word
  e        : Word
  outOffset : Word
  rxOffset : Word
  harqBase : Word
  sentinel : Byte
deriving DecidableEq, Repr

/-- The parameter registers at reset (R26, R233). -/
def Params.reset (c : Config) : Params :=
  { bg := 0, z := 0, c := 0, f := 0, foff := 0, tbslbrm := 0, rv := 0, qm := 0, e := 0, outOffset := 0, rxOffset := 0,
    harqBase := 0, sentinel := c.sentinelReset }

/-- The six element memories as bytes of the block's window (R60, R70): `cells` lists the bytes something has written
since hardware reset number `epoch`, by window offset, offsets strictly rising. A byte not listed holds the free value
`Config.freeByte epoch offset` (R231, U1). -/
structure Memory where
  cells : List Host.Cell
  epoch : Nat
deriving DecidableEq, Repr

/-- The canonical form: window offsets strictly rising. An unlisted byte has no listed value, so no entry can equal
one, and equal memories are equal lists. DESIGN CHOICE, log 2; safe. -/
abbrev Memory.wf (m : Memory) : Prop := m.cells.Pairwise (fun x y => x.1 < y.1)

/-- What the outside world does to the block, one per host step (R17, R79, R214). -/
inductive Input where
  /-- `MemRead(addr, n)` (R12, R74). -/
  | read (addr size : Nat)
  /-- `MemWrite(addr, n, v)` (R12, R74): the low `8 * size` bits of `v`. -/
  | write (addr size : Nat) (v : Word)
  /-- The poll loop `WAIT` (R97): reads STATUS again until BUSY = 0. -/
  | wait
  /-- The platform's hardware reset input (R230). -/
  | hwReset
deriving DecidableEq, Repr

/-- What the last host access answered (R74, R79). -/
inductive BusResp where
  | none
  | written
  | data (v : Word)
deriving DecidableEq, Repr

/-- The state of the block and of what drives it. -/
structure State where
  /-- The parameters the block is built with (R8); no step changes them (DESIGN CHOICE for their place, log 10; safe). -/
  cfg     : Config
  /-- CTRL.IRQ_EN (R27). -/
  irqEn   : Bool
  /-- STATUS.BUSY, and the engine's `busy` (R29, R47). -/
  busy    : Bool
  /-- STATUS.DONE (R30). -/
  done    : Bool
  /-- STATUS.ERR (R31). -/
  err     : Bool
  /-- STATUS.OVR (R32). -/
  ovr     : Bool
  /-- ERRCODE bits 15:0 (R34). -/
  errcode : Half
  /-- ERRCMD (R34). -/
  errcmd  : Word
  /-- The parameter registers (R24). -/
  params  : Params
  /-- K0RAW (R45). -/
  k0raw   : Word
  /-- K0 (R45). -/
  k0      : Word
  /-- NCB (R45). -/
  ncb     : Word
  /-- USABLE (R45). -/
  usable  : Word
  /-- OUTLEN (R45). -/
  outlen  : Word
  /-- The accepted command word; meaningful only while `busy` (R47). -/
  cmd     : Word
  /-- The snapshot `P`; meaningful only while `busy` (R47). -/
  snap    : Params
  /-- DMEM, EMEM, OMEM, LMEM, RMEM, HMEM (R60, R70). -/
  mem     : Memory
  /-- The model's own (DEDUCED, log 6; safe): the host has accessed a range the command in flight reads or
  writes (R76, R240, U4). -/
  hazard  : Bool
  /-- The model's own (DESIGN CHOICE, log 3; safe): host steps still to come before the command completes (R250, U6). -/
  latency : Nat
  /-- The model's own (DESIGN CHOICE, log 9; safe): the occasion the next free value is drawn for. -/
  freeCtr : Nat
  /-- The model's own (DESIGN CHOICE, log 4; safe): the host accesses still to come, the next one first (R79). -/
  inbox   : List Input
  /-- The model's own (DESIGN CHOICE, log 4; safe): the answer to the last host access. -/
  resp    : BusResp
deriving DecidableEq, Repr

/-- Why a run stops. All four are the bus error of R75, raised by a host access (Machine/Bus.lean) and by no command;
R204 has a model record it as a fault of the host's run. Safe: the block's state would be unchanged. -/
inductive Fault where
  /-- Raised by a host access outside every mapped part of the window (R70, R72). Safe. -/
  | busUnmapped (addr size : Nat)
  /-- Raised by a host access of a size its window does not take (R72, R73). Safe. -/
  | busSize (addr size : Nat)
  /-- Raised by a host access at an offset that is no multiple of its size (R72, R73). Safe. -/
  | busMisaligned (addr size : Nat)
  /-- Raised by a host access to an offset of the register window that R26 does not list (R25, R73). Safe. -/
  | busUnlistedRegister (addr : Nat)
deriving DecidableEq, Repr

/-- Why an instruction has no outcome. Raised by no meaning. -/
inductive Refusal where
  /-- Raised by an arm of `exec` whose instruction has no meaning yet. Safe: nothing can be proved of it. -/
  | notModelled (mnemonic : String)
deriving DecidableEq, Repr

/-- The memories right after hardware reset number `epoch`: nothing listed, every byte free (R231). -/
def Memory.fresh (epoch : Nat) : Memory := { cells := [], epoch := epoch }

/-- A block with these parameters right after a hardware reset (R52, R230, R233), no host access pending. The values of
`cmd`, `snap` and the model's own fields are a DESIGN CHOICE, log 9; unsafe. -/
def State.initial (c : Config) : State :=
  { cfg := c, irqEn := false, busy := false, done := false, err := false, ovr := false, errcode := 0, errcmd := 0,
    params := Params.reset c, k0raw := 0, k0 := 0, ncb := 0, usable := 0, outlen := 0, cmd := 0, snap := Params.reset c,
    mem := Memory.fresh 0, hazard := false, latency := 0, freeCtr := 1, inbox := [], resp := .none }

/-- The block with the default parameters (R8) right after a hardware reset. -/
def State.reset : State := State.initial Config.default

end Sys2Proof.Machine
end

