-- ==== Sys2Proof/Machine/Errors.lean ====
section
/-! DEFINITION. The error codes of a rejection (spec/60_exceptions.md R191 to R195). -/

namespace Sys2Proof.Machine

/-- The details of InvalidParameter (R193). -/
inductive ParamError where
  | cZero
  | foffGtE
  | foffGtNcb
  | bgRange
  | zRange
  | rvRange
  | eZero
  | eNotMultQm
  | noUsable
  | bufRange
  | fillerRange
  | sentinelRange
deriving DecidableEq, Repr

/-- Why a command is rejected (R191). The reserved class InternalConsistency has no constructor: a model has no step
that raises it (R195). -/
inductive Reason where
  | invalidParameter (d : ParamError)
  | unsupportedModulationOrder
  | illegalCommand (d : Illegal)
deriving DecidableEq, Repr

/-- The detail byte of InvalidParameter (R193). -/
def ParamError.detail : ParamError → Byte
  | .cZero => 0x01
  | .foffGtE => 0x02
  | .foffGtNcb => 0x03
  | .bgRange => 0x04
  | .zRange => 0x05
  | .rvRange => 0x06
  | .eZero => 0x07
  | .eNotMultQm => 0x08
  | .noUsable => 0x09
  | .bufRange => 0x0A
  | .fillerRange => 0x0B
  | .sentinelRange => 0x0C

/-- The detail byte of IllegalCommand (R192). -/
def illegalDetail : Illegal → Byte
  | .rsvOp => 0x01
  | .rsvBits => 0x02
  | .badFlag => 0x03
  | .cfSkip => 0x04

/-- The class byte (R191). -/
def Reason.errClass : Reason → Byte
  | .invalidParameter _ => 0x01
  | .unsupportedModulationOrder => 0x02
  | .illegalCommand _ => 0x03

/-- The detail byte (R192 to R194). -/
def Reason.detail : Reason → Byte
  | .invalidParameter d => d.detail
  | .unsupportedModulationOrder => 0x00
  | .illegalCommand d => illegalDetail d

/-- `ERRCODE[15:0] = {class, detail}` (R191). -/
def Reason.code (r : Reason) : Half := r.errClass ++ r.detail

end Sys2Proof.Machine
end

