-- ==== Sys2Proof/Machine/Ops.lean ====
section
/-! DEFINITION. The named operations on memory and on the state: byte and half-word access, free values, accepting a
command word (spec/30_encoding.md R88), completing it, rejecting it (spec/60_exceptions.md R199) and the register part
of a reset (spec/70_reset_and_hazards.md R230). -/

namespace Sys2Proof.Machine

/-! ### Memory as bytes of the window -/

/-- The listed byte at a window offset, if something has written it. -/
def cellsGet : List Host.Cell → Nat → Option Byte
  | [], _ => none
  | (b, v) :: rest, a => if a = b then some v else cellsGet rest a

/-- Lists a byte at its place in the rising order of offsets. -/
def cellsPut : List Host.Cell → Nat → Byte → List Host.Cell
  | [], a, v => [(a, v)]
  | (b, w) :: rest, a, v =>
    if a < b then (a, v) :: (b, w) :: rest
    else if a = b then (a, v) :: rest
    else (b, w) :: cellsPut rest a v

/-- The byte at a window offset: the last value written, or the free value it holds since the hardware reset (R231). -/
def Memory.readByte (m : Memory) (a : Nat) : Byte := (cellsGet m.cells a).getD (Config.freeByte m.epoch a)

/-- Stores one byte. -/
def Memory.writeByte (m : Memory) (a : Nat) (v : Byte) : Memory := { m with cells := cellsPut m.cells a v }

/-- Stores bytes at consecutive offsets, the first at `a`. -/
def Memory.writeBytes (m : Memory) (a : Nat) : List Byte → Memory
  | [] => m
  | v :: rest => (m.writeByte a v).writeBytes (a + 1) rest

/-- The 16-bit element whose low byte is at `a`: little-endian (R71). -/
def Memory.readHalf (m : Memory) (a : Nat) : Half := m.readByte (a + 1) ++ m.readByte a

/-- The bytes of a 16-bit element, low byte first (R71). -/
def halfBytes (v : Half) : List Byte := [v.extractLsb' 0 8, v.extractLsb' 8 8]

/-- Stores a 16-bit element, low byte at `a` (R71). -/
def Memory.writeHalf (m : Memory) (a : Nat) (v : Half) : Memory := m.writeBytes a (halfBytes v)

/-- Stores 16-bit elements one after another, the first at `a` (R71). -/
def Memory.writeHalves (m : Memory) (a : Nat) : List Half → Memory
  | [] => m
  | v :: rest => (m.writeHalf a v).writeHalves (a + 2) rest

/-- `len` bytes of the window from offset `start` on. -/
structure Range where
  start : Nat
  len   : Nat
deriving DecidableEq, Repr

/-- The range holds the byte at this offset. -/
def Range.has (r : Range) (a : Nat) : Bool := decide (r.start ≤ a ∧ a < r.start + r.len)

/-- Some range of the list holds the byte. -/
def anyHas (rs : List Range) (a : Nat) : Bool := rs.any fun r => r.has a

/-- Some range of the list holds a byte of the access of `n` bytes at `a`. -/
def touches (rs : List Range) (a n : Nat) : Bool := (List.range n).any fun k => anyHas rs (a + k)

/-- Gives every byte of a range the free value of an occasion. -/
def Memory.scrambleRange (m : Memory) (epoch : Nat) (r : Range) : Memory :=
  m.writeBytes r.start ((List.range r.len).map fun k => Config.freeByte epoch (r.start + k))

/-- Gives every byte of the ranges the free value of an occasion (R232, R240: unspecified afterwards). -/
def Memory.scramble (m : Memory) (epoch : Nat) : List Range → Memory
  | [] => m
  | r :: rest => (m.scrambleRange epoch r).scramble epoch rest

/-! ### Acceptance -/

/-- The state in which the engine holds the command word `w`, its completion due after `lat` host steps: BUSY set, DONE
cleared, the parameter registers snapshotted (R88). -/
def State.load (s : State) (w : Word) (lat : Nat) : State :=
  { s with busy := true, done := false, cmd := w, snap := s.params, hazard := false, latency := lat }

/-- A command word written to CMD (R88): dropped with OVR while BUSY, else accepted. The time to its completion is the
spec's to leave open (R250), so it is a free value. -/
def State.commandWrite (s : State) (w : Word) : State :=
  if s.busy then { s with ovr := true }
  else { s.load w (Config.latency s.freeCtr) with freeCtr := s.freeCtr + 1 }

/-! ### Completion and rejection -/

/-- `complete (success)` (R199): BUSY cleared and DONE set, after the command's writes. -/
def State.complete (s : State) : State :=
  { s with busy := false, done := true, hazard := false, latency := 0 }

/-- `raise X(d)` (R199): the block's one exception entry. ERRCODE and ERRCMD are written, ERR and DONE set, BUSY
cleared; nothing else changes (R200). -/
def State.reject (s : State) (r : Reason) : State :=
  { s with errcode := r.code, errcmd := s.cmd, err := true, busy := false, done := true, hazard := false, latency := 0 }

/-- The memory of a command's effect. When the host has disturbed the command's ranges, every byte the command writes
is free afterwards (R240, U4). -/
def State.putMem (s : State) (writes : List Range) (m : Memory) : State :=
  if s.hazard then { s with mem := m.scramble s.freeCtr writes, freeCtr := s.freeCtr + 1 } else { s with mem := m }

/-- Writes OUTLEN (R45). -/
def State.putOutlen (s : State) (n : Nat) : State := { s with outlen := BitVec.ofNat 32 n }

/-- Writes the selector's result registers (R45). -/
def State.putSelector (s : State) (k0raw k0 ncb usable : Nat) : State :=
  { s with k0raw := BitVec.ofNat 32 k0raw, k0 := BitVec.ofNat 32 k0, ncb := BitVec.ofNat 32 ncb,
           usable := BitVec.ofNat 32 usable }

/-- A command with SKIP = 1 that has passed the word checks: OUTLEN = 0 and no other register change beyond STATUS, no
memory write, no parameter check (R87). -/
def State.skipped (s : State) : State := (s.putOutlen 0).complete

/-! ### Reset -/

/-- The register part of either reset (R230, R232): every register of R26 at its reset value, the command in flight
abandoned. The memories, the free values' counter and what the host still sends are not registers. -/
def State.resetRegisters (s : State) : State :=
  { State.initial s.cfg with mem := s.mem, freeCtr := s.freeCtr, inbox := s.inbox, resp := s.resp }

/-- The hardware reset (R230, R231): registers as at reset, every memory byte unspecified. -/
def State.hardwareReset (s : State) : State :=
  { s.resetRegisters with mem := Memory.fresh s.freeCtr, freeCtr := s.freeCtr + 1 }

end Sys2Proof.Machine
end

