-- ==== Sys2Proof/Machine/Flags.lean ====
section
/-! DEFINITION. The STATUS bits, the interrupt output and the saturation of the accumulators (spec/10_state.md R23, R26,
R49; spec/60_exceptions.md R205; spec/42_dematch.md R137). -/

namespace Sys2Proof.Machine

/-- STATUS as the host reads it (R26): BUSY, DONE, ERR, OVR in bits 0 to 3, the rest RES0. -/
def State.statusWord (s : State) : Word :=
  (BitVec.ofBool s.busy).setWidth 32 ||| ((BitVec.ofBool s.done).setWidth 32 <<< 1)
    ||| ((BitVec.ofBool s.err).setWidth 32 <<< 2) ||| ((BitVec.ofBool s.ovr).setWidth 32 <<< 3)

/-- CTRL as the host reads it (R26): IRQ_EN in bit 0, SRST reads 0, the rest RES0. -/
def State.ctrlWord (s : State) : Word := (BitVec.ofBool s.irqEn).setWidth 32

/-- A write to STATUS (R23, R26): a 1 clears DONE, ERR or OVR; BUSY is RO, the rest RES0. -/
def State.statusWrite (s : State) (v : Word) : State :=
  { s with done := s.done && !v.getLsbD 1, err := s.err && !v.getLsbD 2, ovr := s.ovr && !v.getLsbD 3 }

/-- `IRQ = IRQ_EN and (DONE or ERR)` (R205). OVR does not drive it (R206). -/
def State.irq (s : State) : Bool := s.irqEn && (s.done || s.err)

/-- `sat16` (R12). -/
def sat16 (v : Int) : Int := max (-32768) (min 32767 v)

/-- One combining step (R137): both operands read as signed integers, added exactly, saturated, written back as 16
bits. No flag (R50). -/
def combine (acc llr : Half) : Half := BitVec.ofInt 16 (sat16 (acc.toInt + llr.toInt))

end Sys2Proof.Machine
end

