-- ==== Sys2Proof/Machine/Operands.lean ====
section
/-! DEFINITION. The operands of the commands: the six element memories at their places in the window
(spec/20_memory.md R60, R70, R71) and the parameter fields as exact integers (spec/00_scope.md R11,
spec/30_encoding.md R93). -/

namespace Sys2Proof.Machine

/-- The six element memories (R60). -/
inductive MemId where
  | dmem
  | emem
  | omem
  | lmem
  | rmem
  | hmem
deriving DecidableEq, Repr

/-- All memories, in the order of R70. -/
def MemId.all : List MemId := [.dmem, .emem, .omem, .lmem, .rmem, .hmem]

/-- The window start of each memory (R70, R98). -/
def MemId.start : MemId → Nat
  | .dmem => 0x100000
  | .emem => 0x200000
  | .omem => 0x300000
  | .lmem => 0x400000
  | .rmem => 0x600000
  | .hmem => 0x800000

/-- The element size in bytes (R60, R70). -/
def MemId.esz : MemId → Nat
  | .dmem | .emem | .omem => 1
  | .lmem | .rmem | .hmem => 2

/-- The width of an element in bits, by its parameter (R8, R60). -/
def MemId.width (c : Config) : MemId → Nat
  | .dmem | .emem | .omem => c.bitW
  | .lmem | .rmem => c.llrW
  | .hmem => c.harqW

/-- The number of elements (R60). -/
def MemId.elems (c : Config) : MemId → Nat
  | .dmem => c.dSize
  | .emem => c.eMax
  | .omem => c.gMax
  | .lmem => c.eMax
  | .rmem => c.gMax
  | .hmem => c.hSize

/-- The size of the mapped part in bytes (R70). -/
def MemId.bytes (c : Config) (m : MemId) : Nat := m.esz * m.elems c

/-- The window offset of element `i` (R71). -/
def MemId.addr (m : MemId) (i : Nat) : Nat := m.start + m.esz * i

/-- The bytes of elements `[lo, lo + n)`. -/
def MemId.range (m : MemId) (lo n : Nat) : Range := { start := m.addr lo, len := m.esz * n }

/-- The memory whose mapped part holds this window offset (R70). -/
def MemId.ofAddr (c : Config) (a : Nat) : Option MemId :=
  MemId.all.find? fun m => decide (m.start ≤ a ∧ a < m.start + m.bytes c)

/-- Element `i` of a byte-element memory: DMEM, EMEM, OMEM (R12). -/
def Memory.bit (m : Memory) (x : MemId) (i : Nat) : Byte := m.readByte (x.addr i)

/-- Element `i` of a 16-bit memory: LMEM, RMEM, HMEM (R12). -/
def Memory.half (m : Memory) (x : MemId) (i : Nat) : Half := m.readHalf (x.addr i)

/-- Stores elements of a byte-element memory from index `i` on. -/
def Memory.putBits (m : Memory) (x : MemId) (i : Nat) (vs : List Byte) : Memory := m.writeBytes (x.addr i) vs

/-- Stores elements of a 16-bit memory from index `i` on. -/
def Memory.putHalves (m : Memory) (x : MemId) (i : Nat) (vs : List Half) : Memory := m.writeHalves (x.addr i) vs

/-! ### Parameter fields as exact integers (R11) -/

def Params.bgN (p : Params) : Nat := p.bg.toNat
def Params.zN (p : Params) : Nat := p.z.toNat
def Params.cN (p : Params) : Nat := p.c.toNat
def Params.fN (p : Params) : Nat := p.f.toNat
def Params.foffN (p : Params) : Nat := p.foff.toNat
def Params.tbsN (p : Params) : Nat := p.tbslbrm.toNat
def Params.rvN (p : Params) : Nat := p.rv.toNat
def Params.qmN (p : Params) : Nat := p.qm.toNat
def Params.eN (p : Params) : Nat := p.e.toNat
def Params.outN (p : Params) : Nat := p.outOffset.toNat
def Params.rxN (p : Params) : Nat := p.rxOffset.toNat
def Params.harqN (p : Params) : Nat := p.harqBase.toNat
def Params.sentN (p : Params) : Nat := p.sentinel.toNat

end Sys2Proof.Machine
end

