-- ==== Sys2Proof/Machine/Selector.lean ====
section
/-! DEFINITION. The circular-buffer selector (spec/40_selector.md R105 to R113): one pure function of the snapshot, used
by SELECT, RM, DM, RMIL and DILDM alike. -/

namespace Sys2Proof.Machine

/-- Mother-codeword length `N` (R106). -/
def selN (p : Params) : Nat := if p.bgN = 1 then 66 * p.zN else 50 * p.zN

/-- Circular buffer length `Ncb` (R108). -/
def selNcb (p : Params) : Nat :=
  if p.tbsN = 0 then selN p else min (selN p) (3 * p.tbsN / (2 * p.cN))

/-- Raw start index (R109): the multiplication precedes the division. -/
def selK0raw (c : Config) (p : Params) : Nat := c.k0Tab p.bgN p.rvN * selNcb p / selN p * p.zN

/-- The index lies in the filler region `[FOFF, FOFF + F)` (R38). -/
def inFiller (p : Params) (i : Nat) : Bool := decide (p.foffN ≤ i ∧ i < p.foffN + p.fN)

/-- The start index after the filler advance (R111). -/
def selAdvanced (c : Config) (p : Params) : Nat := if inFiller p (selK0raw c p) then p.foffN + p.fN else selK0raw c p

/-- The start index used by the selection: wrapped to 0 when the advance reaches `Ncb` (R112). -/
def selK0 (c : Config) (p : Params) : Nat := if selNcb p ≤ selAdvanced c p then 0 else selAdvanced c p

/-- The usable count `U` (R112); used only where FOFF <= Ncb. -/
def selU (p : Params) : Nat := selNcb p - (min (p.foffN + p.fN) (selNcb p) - p.foffN)

/-- `L` (R113): the usable indices of `[k0, Ncb)` in increasing order, then those of `[0, k0)`. -/
def selOnePass (c : Config) (p : Params) : List Nat :=
  (List.range' (selK0 c p) (selNcb p - selK0 c p) ++ List.range (selK0 c p)).filter fun i => !inFiller p i

/-- `Sel(P, 0), ..., Sel(P, n - 1)` where `Sel(P, j) = L[j mod U]` (R113). -/
def selPrefix (c : Config) (p : Params) (n : Nat) : List Nat :=
  let l := selOnePass c p
  (List.range n).map fun j => l.getD (j % l.length) 0

/-- `Sel(P, j)`: the closed form of R113. DEDUCED, log 15; safe. -/
def sel (c : Config) (p : Params) (j : Nat) : Nat := (selOnePass c p).getD (j % (selOnePass c p).length) 0

/-- The loop of R113 as it stands there: from position `pos`, with `left` indices still to select, visiting at most
`fuel` positions. The meanings use the closed form; that the loop computes the same indices is a statement. -/
def selLoop (c : Config) (p : Params) : (fuel pos left : Nat) → List Nat
  | _, _, 0 => []
  | 0, _, _ + 1 => []
  | fuel + 1, pos, left + 1 =>
    let next := if pos + 1 = selNcb p then 0 else pos + 1
    if inFiller p pos then selLoop c p fuel next (left + 1) else pos :: selLoop c p fuel next left

end Sys2Proof.Machine
end

