-- ==== Sys2Proof/Machine/Validate.lean ====
section
/-! DEFINITION. The named checks (spec/60_exceptions.md R196), their order per command (R198), the first that is true
(R197), and the memory ranges of each command (spec/70_reset_and_hazards.md R240). -/

namespace Sys2Proof.Machine

/-- The bounds of the BUF check (R196). -/
inductive Bound where
  | e
  | out
  | rx
  | harq
deriving DecidableEq, Repr

/-- The named checks on the snapshot (R196); CMDW is the decoder's. -/
inductive Check where
  | bg
  | z
  | rv
  | c
  | qm
  | ez
  | eq
  | fe
  | fn
  | buf (bounds : List Bound)
  | nu
  | sn
  | fr
deriving DecidableEq, Repr

/-- The bound fails (R196, R66). -/
def Bound.fails (c : Config) (p : Params) : Bound → Bool
  | .e => decide (c.eMax < p.eN)
  | .out => decide (c.gMax < p.outN + p.eN)
  | .rx => decide (c.gMax < p.rxN + p.eN)
  | .harq => decide (c.hSize < p.harqN + selNcb p)

/-- The check is true, that is, it raises its error (R196). -/
def Check.fails (c : Config) (p : Params) : Check → Bool
  | .bg => !(p.bgN == 1 || p.bgN == 2)
  | .z => p.zN == 0 || decide (c.zMax < p.zN)
  | .rv => decide (3 < p.rvN)
  | .c => p.cN == 0
  | .qm => !(p.qmN == 2 || p.qmN == 4 || p.qmN == 6 || p.qmN == 8)
  | .ez => p.eN == 0
  | .eq => p.eN % p.qmN != 0
  | .fe => decide (p.eN < p.foffN)
  | .fn => decide (selNcb p < p.foffN)
  | .buf bounds => bounds.any (Bound.fails c p)
  | .nu => selU p == 0
  | .sn => p.sentN == 0 || p.sentN == 1
  | .fr => decide (selN p < p.foffN + p.fN)

/-- The error a check raises (R196). -/
def Check.reason : Check → Reason
  | .bg => .invalidParameter .bgRange
  | .z => .invalidParameter .zRange
  | .rv => .invalidParameter .rvRange
  | .c => .invalidParameter .cZero
  | .qm => .unsupportedModulationOrder
  | .ez => .invalidParameter .eZero
  | .eq => .invalidParameter .eNotMultQm
  | .fe => .invalidParameter .foffGtE
  | .fn => .invalidParameter .foffGtNcb
  | .buf _ => .invalidParameter .bufRange
  | .nu => .invalidParameter .noUsable
  | .sn => .invalidParameter .sentinelRange
  | .fr => .invalidParameter .fillerRange

/-- The checks of each command after CMDW, left to right (R198); none where SKIP = 1 (R87, R197). -/
def checksOf : Instr → List Check
  | .nop => []
  | .clrerr => []
  | .select => [.bg, .z, .rv, .c, .ez, .fe, .fn, .nu]
  | .markf => [.bg, .z, .sn, .fr]
  | .rm => [.bg, .z, .rv, .c, .ez, .fe, .fn, .buf [.e], .nu]
  | .dm => [.bg, .z, .rv, .c, .ez, .fe, .fn, .buf [.e, .harq], .nu]
  | .dmCf => [.bg, .z, .rv, .c, .ez, .fe, .fn, .buf [.e, .harq], .nu]
  | .il => [.qm, .ez, .eq, .buf [.e, .out]]
  | .dil => [.qm, .ez, .eq, .buf [.e, .rx]]
  | .rmil => [.bg, .z, .rv, .c, .qm, .ez, .eq, .fe, .fn, .buf [.e, .out], .nu]
  | .dildm => [.bg, .z, .rv, .c, .qm, .ez, .eq, .fe, .fn, .buf [.e, .rx, .harq], .nu]
  | .dildmCf => [.bg, .z, .rv, .c, .qm, .ez, .eq, .fe, .fn, .buf [.e, .rx, .harq], .nu]
  | .rmSkip => []
  | .dmSkip => []
  | .ilSkip => []
  | .dilSkip => []
  | .rmilSkip => []
  | .dildmSkip => []

/-- The first check of the list that is true, as its error (R197). -/
def firstFailing (c : Config) (p : Params) : List Check → Option Reason
  | [] => none
  | k :: rest => if k.fails c p then some k.reason else firstFailing c p rest

/-- `Validate(op, P)` (R197, R198). -/
def validate (c : Config) (i : Instr) (p : Params) : Option Reason := firstFailing c p (checksOf i)

/-! ### The ranges of R240 -/

/-- The memory ranges a command writes (R240, and R60's column "engine writes in"). DEDUCED, log 20; safe. -/
def writeRanges : Instr → Params → List Range
  | .markf, p => [MemId.dmem.range p.foffN p.fN]
  | .rm, p => [MemId.emem.range 0 p.eN]
  | .dm, p => [MemId.hmem.range p.harqN (selNcb p)]
  | .dmCf, p => [MemId.hmem.range p.harqN (selNcb p)]
  | .il, p => [MemId.omem.range p.outN p.eN]
  | .dil, p => [MemId.lmem.range 0 p.eN]
  | .rmil, p => [MemId.emem.range 0 p.eN, MemId.omem.range p.outN p.eN]
  | .dildm, p => [MemId.lmem.range 0 p.eN, MemId.hmem.range p.harqN (selNcb p)]
  | .dildmCf, p => [MemId.lmem.range 0 p.eN, MemId.hmem.range p.harqN (selNcb p)]
  | .nop, _ => []
  | .select, _ => []
  | .clrerr, _ => []
  | .rmSkip, _ => []
  | .dmSkip, _ => []
  | .ilSkip, _ => []
  | .dilSkip, _ => []
  | .rmilSkip, _ => []
  | .dildmSkip, _ => []

/-- The memory ranges a command reads (R240, and R60's column "engine reads in"). DEDUCED, log 20; safe. -/
def readRanges : Instr → Params → List Range
  | .rm, p => [MemId.dmem.range 0 (selNcb p)]
  | .dm, p => [MemId.lmem.range 0 p.eN, MemId.hmem.range p.harqN (selNcb p)]
  | .dmCf, p => [MemId.lmem.range 0 p.eN, MemId.hmem.range p.harqN (selNcb p)]
  | .il, p => [MemId.emem.range 0 p.eN]
  | .dil, p => [MemId.rmem.range p.rxN p.eN]
  | .rmil, p => [MemId.dmem.range 0 (selNcb p), MemId.emem.range 0 p.eN]
  | .dildm, p => [MemId.rmem.range p.rxN p.eN, MemId.lmem.range 0 p.eN, MemId.hmem.range p.harqN (selNcb p)]
  | .dildmCf, p => [MemId.rmem.range p.rxN p.eN, MemId.lmem.range 0 p.eN, MemId.hmem.range p.harqN (selNcb p)]
  | .nop, _ => []
  | .select, _ => []
  | .markf, _ => []
  | .clrerr, _ => []
  | .rmSkip, _ => []
  | .dmSkip, _ => []
  | .ilSkip, _ => []
  | .dilSkip, _ => []
  | .rmilSkip, _ => []
  | .dildmSkip, _ => []

/-- The shape of every command that checks its parameters: rejected with the first failing check, before any write
(R197, R199, R200), or its effect and completion. -/
def validated (i : Instr) (effect : State → State) (s : State) : Host.Outcome State Fault Refusal :=
  match validate s.cfg i s.snap with
  | some r => .next (s.reject r)
  | none => .next (effect s).complete

/-- The selector's results in their registers (R45, R115). -/
def State.putSelection (s : State) : State :=
  s.putSelector (selK0raw s.cfg s.snap) (selK0 s.cfg s.snap) (selNcb s.snap) (selU s.snap)

end Sys2Proof.Machine
end

