-- ==== Sys2Proof/Machine/Bus.lean ====
section
/-! DEFINITION. The host side of the window: the register map (spec/10_state.md R23, R26), host accesses and bus errors
(spec/20_memory.md R70 to R77), the memory hazard (spec/70_reset_and_hazards.md R240), the soft reset (R232) and one
host step. -/

namespace Sys2Proof.Machine

/-- The registers of R26. -/
inductive Reg where
  | id
  | ctrl
  | status
  | cmd
  | errcode
  | errcmd
  | bg
  | z
  | c
  | f
  | foff
  | tbslbrm
  | rv
  | qm
  | e
  | outOffset
  | rxOffset
  | harqBase
  | sentinel
  | k0raw
  | k0
  | ncb
  | usable
  | outlen
  | capZmax
  | capEmax
  | capGmax
  | capHsize
deriving DecidableEq, Repr

/-- All registers, in the order of R26. -/
def Reg.all : List Reg :=
  [.id, .ctrl, .status, .cmd, .errcode, .errcmd, .bg, .z, .c, .f, .foff, .tbslbrm, .rv, .qm, .e, .outOffset, .rxOffset,
   .harqBase, .sentinel, .k0raw, .k0, .ncb, .usable, .outlen, .capZmax, .capEmax, .capGmax, .capHsize]

/-- The byte offset of each register (R26). -/
def Reg.offset : Reg → Nat
  | .id => 0x000
  | .ctrl => 0x004
  | .status => 0x008
  | .cmd => 0x00C
  | .errcode => 0x010
  | .errcmd => 0x014
  | .bg => 0x020
  | .z => 0x024
  | .c => 0x028
  | .f => 0x02C
  | .foff => 0x030
  | .tbslbrm => 0x034
  | .rv => 0x038
  | .qm => 0x03C
  | .e => 0x040
  | .outOffset => 0x044
  | .rxOffset => 0x048
  | .harqBase => 0x04C
  | .sentinel => 0x050
  | .k0raw => 0x060
  | .k0 => 0x064
  | .ncb => 0x068
  | .usable => 0x06C
  | .outlen => 0x070
  | .capZmax => 0x080
  | .capEmax => 0x084
  | .capGmax => 0x088
  | .capHsize => 0x08C

/-- The register at an offset, if R26 lists one. -/
def Reg.ofOffset (a : Nat) : Option Reg := Reg.all.find? fun r => r.offset == a

/-- What a read of a register returns (R23, R26). RES0 bits and the W1A and WO registers read 0. A result register read
while BUSY holds its previous value, since results are written at completion only (R45). -/
def State.readReg (s : State) : Reg → Word
  | .id => Config.idValue
  | .ctrl => s.ctrlWord
  | .status => s.statusWord
  | .cmd => 0
  | .errcode => s.errcode.setWidth 32
  | .errcmd => s.errcmd
  | .bg => s.params.bg
  | .z => s.params.z
  | .c => s.params.c
  | .f => s.params.f
  | .foff => s.params.foff
  | .tbslbrm => s.params.tbslbrm
  | .rv => s.params.rv
  | .qm => s.params.qm
  | .e => s.params.e
  | .outOffset => s.params.outOffset
  | .rxOffset => s.params.rxOffset
  | .harqBase => s.params.harqBase
  | .sentinel => s.params.sentinel.setWidth 32
  | .k0raw => s.k0raw
  | .k0 => s.k0
  | .ncb => s.ncb
  | .usable => s.usable
  | .outlen => s.outlen
  | .capZmax => BitVec.ofNat 32 s.cfg.zMax
  | .capEmax => BitVec.ofNat 32 s.cfg.eMax
  | .capGmax => BitVec.ofNat 32 s.cfg.gMax
  | .capHsize => BitVec.ofNat 32 s.cfg.hSize

/-! ### The command in flight -/

/-- The command in flight, when it is one whose checks pass: only such a command reads or writes memory (R200).
DEDUCED, log 18; unsafe if a block touches memory for a command it rejects. -/
def State.running (s : State) : Option Instr :=
  if s.busy then
    match decode s.cmd with
    | .cmd i => if (validate s.cfg i s.snap).isNone then some i else none
    | .illegal _ => none
  else none

/-- The ranges the command in flight writes (R240). -/
def State.flightWrites (s : State) : List Range :=
  match s.running with
  | some i => writeRanges i s.snap
  | none => []

/-- The ranges the command in flight reads (R240). -/
def State.flightReads (s : State) : List Range :=
  match s.running with
  | some i => readRanges i s.snap
  | none => []

/-- The ranges the command in flight reads or writes (R240). -/
def State.flightRanges (s : State) : List Range := s.flightReads ++ s.flightWrites

/-- The soft reset (R28, R232): the registers as at reset. With a command in flight every byte it writes is unspecified
afterwards; with none in flight no memory changes. DEDUCED, log 7; safe. -/
def State.softReset (s : State) : State :=
  if s.busy then
    { s.resetRegisters with mem := s.mem.scramble s.freeCtr s.flightWrites, freeCtr := s.freeCtr + 1 }
  else s.resetRegisters

/-- A write to CTRL (R28): bit 1 performs the soft reset and the rest of that write is ignored; else IRQ_EN only. -/
def State.ctrlWrite (s : State) (v : Word) : State :=
  if v.getLsbD 1 then s.softReset else { s with irqEn := v.getLsbD 0 }

/-- A write to a register (R23, R24, R26). A write to an RO register is ignored; SENTINEL keeps bits 7:0. -/
def State.writeReg (s : State) (r : Reg) (v : Word) : State :=
  match r with
  | .ctrl => s.ctrlWrite v
  | .status => s.statusWrite v
  | .cmd => s.commandWrite v
  | .bg => { s with params := { s.params with bg := v } }
  | .z => { s with params := { s.params with z := v } }
  | .c => { s with params := { s.params with c := v } }
  | .f => { s with params := { s.params with f := v } }
  | .foff => { s with params := { s.params with foff := v } }
  | .tbslbrm => { s with params := { s.params with tbslbrm := v } }
  | .rv => { s with params := { s.params with rv := v } }
  | .qm => { s with params := { s.params with qm := v } }
  | .e => { s with params := { s.params with e := v } }
  | .outOffset => { s with params := { s.params with outOffset := v } }
  | .rxOffset => { s with params := { s.params with rxOffset := v } }
  | .harqBase => { s with params := { s.params with harqBase := v } }
  | .sentinel => { s with params := { s.params with sentinel := v.extractLsb' 0 8 } }
  | .id => s
  | .errcode => s
  | .errcmd => s
  | .k0raw => s
  | .k0 => s
  | .ncb => s
  | .usable => s
  | .outlen => s
  | .capZmax => s
  | .capEmax => s
  | .capGmax => s
  | .capHsize => s

/-! ### Memory windows -/

/-- The bytes as one little-endian number (R71, R74). The zeros above are a DESIGN CHOICE, log 17; unsafe only for a claim
about them. -/
def ofBytes : List Byte → Word
  | [] => 0
  | b :: rest => b.setWidth 32 ||| (ofBytes rest <<< 8)

/-- The bytes a host access of `n` bytes at `a` has to do with, `quiet k` where no command is in flight. A byte of a
range the command in flight reads or writes has no defined result (R76): it is a free value. -/
def State.accessBytes (s : State) (a n : Nat) (quiet : Nat → Byte) : List Byte :=
  (List.range n).map fun k => if anyHas s.flightRanges (a + k) then Config.freeByte s.freeCtr (a + k) else quiet k

/-- After a legal host access of a memory window: an access that touches a range the command in flight reads or writes is
recorded as the hazard (R240, U4), and a fresh occasion follows for the next free value. DEDUCED, log 6; safe. -/
def State.recordAccess (s : State) (a n : Nat) : State :=
  if touches s.flightRanges a n then { s with hazard := true, freeCtr := s.freeCtr + 1 } else s

/-- A legal host read of a memory window (R74, R76, U3). DEDUCED, log 6; safe. -/
def State.readWindow (s : State) (a n : Nat) : State :=
  { s.recordAccess a n with resp := .data (ofBytes (s.accessBytes a n fun k => s.mem.readByte (a + k))) }

/-- A legal host write of a memory window (R74, R76). DEDUCED, log 8; safe. -/
def State.writeWindow (s : State) (a n : Nat) (v : Word) : State :=
  { s.recordAccess a n with
    mem := s.mem.writeBytes a (s.accessBytes a n fun k => v.extractLsb' (8 * k) 8), resp := .written }

/-! ### Host accesses -/

/-- Where a legal access goes. -/
inductive Target where
  | register (r : Reg)
  | window (m : MemId)
deriving DecidableEq, Repr

/-- R72, R73, R75: an access is to a listed register (4 bytes, aligned) or to the mapped part of one memory (1, 2 or 4
bytes, aligned, wholly inside); any other is a bus error. Which name it gets is a DESIGN CHOICE, log 5; safe. -/
def target (c : Config) (a n : Nat) : Except Fault Target :=
  if a < 0x1000 then
    if n ≠ 4 then .error (.busSize a n)
    else if a % 4 ≠ 0 then .error (.busMisaligned a n)
    else match Reg.ofOffset a with
      | some r => .ok (.register r)
      | none => .error (.busUnlistedRegister a)
  else match MemId.ofAddr c a with
    | none => .error (.busUnmapped a n)
    | some m =>
      if n ≠ 1 ∧ n ≠ 2 ∧ n ≠ 4 then .error (.busSize a n)
      else if a % n ≠ 0 then .error (.busMisaligned a n)
      else if m.start + m.bytes c < a + n then .error (.busUnmapped a n)
      else .ok (.window m)

/-- `MemRead(addr, n)` (R74, R75, R77). -/
def hostRead (s : State) (a n : Nat) : Host.Outcome State Fault Refusal :=
  match target s.cfg a n with
  | .error f => .fault f
  | .ok (.register r) => .next { s with resp := .data (s.readReg r) }
  | .ok (.window _) => .next (s.readWindow a n)

/-- `MemWrite(addr, n, v)` (R74, R75). -/
def hostWrite (s : State) (a n : Nat) (v : Word) : Host.Outcome State Fault Refusal :=
  match target s.cfg a n with
  | .error f => .fault f
  | .ok (.register r) => .next { s.writeReg r v with resp := .written }
  | .ok (.window _) => .next (s.writeWindow a n v)

/-- One input: a host access, one turn of the WAIT loop (R97: a STATUS read, repeated until BUSY = 0), or the hardware
reset. -/
def input (s : State) (x : Input) : Host.Outcome State Fault Refusal :=
  match x with
  | .read a n => hostRead s a n
  | .write a n v => hostWrite s a n v
  | .wait => .next { s with resp := .data s.statusWord, inbox := if s.busy then .wait :: s.inbox else s.inbox }
  | .hwReset => .next s.hardwareReset

/-- One host step: the next input, taken off the list; a command in flight is one host step closer to its completion
(R79, R250). -/
def hostStep (s : State) (x : Input) (rest : List Input) : Host.Outcome State Fault Refusal :=
  input { s with inbox := rest, latency := s.latency - 1 } x

/-- The engine moves next: it holds a command, and either its time has come or the host does nothing more (R250, R251:
every accepted command completes). DESIGN CHOICE, log 3; safe. -/
def State.engineTurn (s : State) : Bool := s.busy && (s.latency == 0 || s.inbox.isEmpty)

end Sys2Proof.Machine
end

