-- ==== Sys2Proof/Machine/Control.lean ====
section
/-! DEFINITION. The control commands NOP and CLRERR (spec/45_control.md). -/

namespace Sys2Proof.Machine

/-- NOP (R180). -/
def execNop (s : State) : Host.Outcome State Fault Refusal := .next (s.putOutlen 0).complete

/-- The error state cleared (R182). -/
def State.clearErrors (s : State) : State := { s with errcode := 0, errcmd := 0, err := false, ovr := false }

/-- CLRERR (R182). -/
def execClrerr (s : State) : Host.Outcome State Fault Refusal := .next (s.clearErrors.putOutlen 0).complete

end Sys2Proof.Machine
end

