-- ==== Sys2Proof/Machine/Dematch.lean ====
section
/-! DEFINITION. Rate dematching and HARQ soft combining: DM, DM.cf and DM.skip (spec/42_dematch.md R136). -/

namespace Sys2Proof.Machine

/-- `HMEM[h + p] <- sat16(signed16(HMEM[h + p]) + signed16(llr))` (R136, R137). -/
def combineAt (m : Memory) (i : Nat) (llr : Half) : Memory :=
  m.writeHalf (MemId.hmem.addr i) (combine (m.half .hmem i) llr)

/-- The combining loop of R136 over the positions still to visit, in increasing `j` (R138): `todo` lists pairs of a
position in the HARQ buffer and the LLR added there. -/
def combineAll (base : Nat) (m : Memory) : List (Nat × Half) → Memory
  | [] => m
  | (i, llr) :: rest => combineAll base (combineAt m (base + i) llr) rest

/-- The pairs `(Sel(P, j), LMEM[j])` for `j` in `[0, E)` (R136). -/
def combineList (c : Config) (p : Params) (m : Memory) : List (Nat × Half) :=
  (selPrefix c p p.eN).zip ((List.range p.eN).map fun j => m.half .lmem j)

/-- `for p in [0, Ncb): HMEM[h + p] <- 0`, filler indices included (R139). -/
def clearHarq (p : Params) (m : Memory) : Memory := m.putHalves .hmem p.harqN (List.replicate (selNcb p) 0)

/-- The combining of R136. LMEM and HMEM are different memories, so LMEM may be read before the first write. -/
def dmMemory (c : Config) (p : Params) (m : Memory) : Memory := combineAll p.harqN m (combineList c p m)

/-- The clear, then the combining (R136 with CF = 1). -/
def dmCfMemory (c : Config) (p : Params) (m : Memory) : Memory := dmMemory c p (clearHarq p m)

/-- DM (R136, CF = 0). -/
def execDm (s : State) : Host.Outcome State Fault Refusal :=
  validated .dm (fun s => ((s.putMem (writeRanges .dm s.snap) (dmMemory s.cfg s.snap s.mem)).putSelection).putOutlen s.snap.eN) s

/-- DM.cf (R136, R139, CF = 1). -/
def execDmCf (s : State) : Host.Outcome State Fault Refusal :=
  validated .dmCf
    (fun s => ((s.putMem (writeRanges .dmCf s.snap) (dmCfMemory s.cfg s.snap s.mem)).putSelection).putOutlen s.snap.eN) s

/-- DM.skip (R87, R136). -/
def execDmSkip (s : State) : Host.Outcome State Fault Refusal := .next s.skipped

end Sys2Proof.Machine
end

