-- ==== Sys2Proof/Machine/Interleave.lean ====
section
/-! DEFINITION. Bit interleaving and de-interleaving: IL, IL.skip, DIL, DIL.skip (spec/43_interleave.md R150, R151,
R153). -/

namespace Sys2Proof.Machine

/-- The input index `q * L + i` of each output position `i * Qm + q`, in the order of the output positions: for `i` in
`[0, L)`, for `q` in `[0, Qm)` (R150, R151). -/
def interleaveIndices (l qm : Nat) : List Nat :=
  (List.range l).flatMap fun i => (List.range qm).map fun q => q * l + i

/-- The input index `i * Qm + q` of each output position `q * L + i`, in the order of the output positions: for `q` in
`[0, Qm)`, for `i` in `[0, L)` (R150, R153). -/
def deinterleaveIndices (l qm : Nat) : List Nat :=
  (List.range qm).flatMap fun q => (List.range l).map fun i => i * qm + q

/-- `OMEM[OUT_OFFSET + i * QM + q] <- EMEM[q * L + i]` (R151). -/
def ilMemory (p : Params) (m : Memory) : Memory :=
  m.putBits .omem p.outN ((interleaveIndices (p.eN / p.qmN) p.qmN).map fun k => m.bit .emem k)

/-- `LMEM[q * L + i] <- RMEM[RX_OFFSET + i * QM + q]` (R153). -/
def dilMemory (p : Params) (m : Memory) : Memory :=
  m.putHalves .lmem 0 ((deinterleaveIndices (p.eN / p.qmN) p.qmN).map fun k => m.half .rmem (p.rxN + k))

/-- IL (R151). -/
def execIl (s : State) : Host.Outcome State Fault Refusal :=
  validated .il (fun s => (s.putMem (writeRanges .il s.snap) (ilMemory s.snap s.mem)).putOutlen s.snap.eN) s

/-- IL.skip (R87, R151). -/
def execIlSkip (s : State) : Host.Outcome State Fault Refusal := .next s.skipped

/-- DIL (R153). -/
def execDil (s : State) : Host.Outcome State Fault Refusal :=
  validated .dil (fun s => (s.putMem (writeRanges .dil s.snap) (dilMemory s.snap s.mem)).putOutlen s.snap.eN) s

/-- DIL.skip (R87, R153). -/
def execDilSkip (s : State) : Host.Outcome State Fault Refusal := .next s.skipped

end Sys2Proof.Machine
end

