-- ==== Sys2Proof/Machine/Ratematch.lean ====
section
/-! DEFINITION. Rate matching: RM and RM.skip (spec/41_ratematch.md R126). -/

namespace Sys2Proof.Machine

/-- `for j in [0, E): EMEM[j] <- DMEM[Sel(P, j)]` (R126). DMEM and EMEM are different memories, so every read may come
before the first write. -/
def rmMemory (c : Config) (p : Params) (m : Memory) : Memory :=
  m.putBits .emem 0 ((selPrefix c p p.eN).map fun i => m.bit .dmem i)

/-- RM (R126). -/
def execRm (s : State) : Host.Outcome State Fault Refusal :=
  validated .rm (fun s => ((s.putMem (writeRanges .rm s.snap) (rmMemory s.cfg s.snap s.mem)).putSelection).putOutlen s.snap.eN) s

/-- RM.skip (R87, R126). -/
def execRmSkip (s : State) : Host.Outcome State Fault Refusal := .next s.skipped

end Sys2Proof.Machine
end

