-- ==== Sys2Proof/Machine/Segment.lean ====
section
/-! DEFINITION. The per-segment commands MARKF, RMIL, DILDM and their flagged forms (spec/44_segment.md R165, R168,
R170). -/

namespace Sys2Proof.Machine

/-- `for i in [0, F): DMEM[FOFF + i] <- SENTINEL` (R165). -/
def markfMemory (p : Params) (m : Memory) : Memory := m.putBits .dmem p.foffN (List.replicate p.fN p.sentinel)

/-- MARKF (R165). -/
def execMarkf (s : State) : Host.Outcome State Fault Refusal :=
  validated .markf (fun s => (s.putMem (writeRanges .markf s.snap) (markfMemory s.snap s.mem)).putOutlen s.snap.fN) s

/-- RMIL (R168): as RM, then as IL on the EMEM that RM left, all checks before any write. -/
def execRmil (s : State) : Host.Outcome State Fault Refusal :=
  validated .rmil
    (fun s => ((s.putMem (writeRanges .rmil s.snap) (ilMemory s.snap (rmMemory s.cfg s.snap s.mem))).putSelection).putOutlen
      s.snap.eN) s

/-- RMIL.skip (R87, R168). -/
def execRmilSkip (s : State) : Host.Outcome State Fault Refusal := .next s.skipped

/-- DILDM (R170, CF = 0): as DIL, then as DM on the LMEM that DIL left, all checks before any write. -/
def execDildm (s : State) : Host.Outcome State Fault Refusal :=
  validated .dildm
    (fun s => ((s.putMem (writeRanges .dildm s.snap) (dmMemory s.cfg s.snap (dilMemory s.snap s.mem))).putSelection).putOutlen
      s.snap.eN) s

/-- DILDM.cf (R170, CF = 1): as DIL, then as DM.cf. -/
def execDildmCf (s : State) : Host.Outcome State Fault Refusal :=
  validated .dildmCf
    (fun s => ((s.putMem (writeRanges .dildmCf s.snap)
      (dmCfMemory s.cfg s.snap (dilMemory s.snap s.mem))).putSelection).putOutlen s.snap.eN) s

/-- DILDM.skip (R87, R170). -/
def execDildmSkip (s : State) : Host.Outcome State Fault Refusal := .next s.skipped

end Sys2Proof.Machine
end

