-- ==== Sys2Proof/Machine/Select.lean ====
section
/-! DEFINITION. SELECT (spec/40_selector.md R115). -/

namespace Sys2Proof.Machine

/-- SELECT (R115): the selector's results and OUTLEN = 0; no memory operand. -/
def execSelect (s : State) : Host.Outcome State Fault Refusal :=
  validated .select (fun s => s.putSelection.putOutlen 0) s

end Sys2Proof.Machine
end

