-- ==== Sys2Proof/Machine/Dispatch.lean ====
section
/-! DEFINITION. One arm per command: its meaning at the engine's completion step (spec/10_state.md R48). -/

namespace Sys2Proof.Machine

def exec (i : Instr) (s : State) : Host.Outcome State Fault Refusal :=
  match i with
  | .nop => Sys2Proof.Machine.execNop s
  | .select => Sys2Proof.Machine.execSelect s
  | .markf => Sys2Proof.Machine.execMarkf s
  | .rm => Sys2Proof.Machine.execRm s
  | .rmSkip => Sys2Proof.Machine.execRmSkip s
  | .dm => Sys2Proof.Machine.execDm s
  | .dmCf => Sys2Proof.Machine.execDmCf s
  | .dmSkip => Sys2Proof.Machine.execDmSkip s
  | .il => Sys2Proof.Machine.execIl s
  | .ilSkip => Sys2Proof.Machine.execIlSkip s
  | .dil => Sys2Proof.Machine.execDil s
  | .dilSkip => Sys2Proof.Machine.execDilSkip s
  | .rmil => Sys2Proof.Machine.execRmil s
  | .rmilSkip => Sys2Proof.Machine.execRmilSkip s
  | .dildm => Sys2Proof.Machine.execDildm s
  | .dildmCf => Sys2Proof.Machine.execDildmCf s
  | .dildmSkip => Sys2Proof.Machine.execDildmSkip s
  | .clrerr => Sys2Proof.Machine.execClrerr s

end Sys2Proof.Machine
end

