-- ==== Sys2Proof/Machine/Step.lean ====
section
/-! DEFINITION. One step of the machine: the engine completes its command, or the host makes its next access, or
nothing is to be done (spec/20_memory.md R79, spec/70_reset_and_hazards.md R230, R250). -/

namespace Sys2Proof.Machine

/-- The completion step: the accepted word is decoded, an illegal word is rejected (R88, R91, R196 CMDW), a command runs
with its meaning. -/
def engineStep (s : State) : Host.Outcome State Fault Refusal :=
  match decode s.cmd with
  | .cmd i => exec i s
  | .illegal d => .next (s.reject (.illegalCommand d))

/-- One step. With no command in flight and no input left the block waits for a command word (R230).
DESIGN CHOICE, log 16; safe. -/
def step (s : State) : Host.Outcome State Fault Refusal :=
  if s.engineTurn then engineStep s
  else match s.inbox with
    | [] => .next s
    | x :: rest => hostStep s x rest

/-- The state in which the command word `w` (its low `nbits` bits, the rest zero) has just been accepted and the engine
moves next, so that the very next step runs it (R88). Stands for the host's write of `w` to CMD.
DESIGN CHOICE, log 14; safe. -/
def State.withFetchWord (s : State) (nbits w : Nat) : State := s.load (BitVec.ofNat 32 (w % 2 ^ nbits)) 0

end Sys2Proof.Machine
end

