-- ==== Sys2Proof/Machine/HostProgram.lean ====
section
/-! DEFINITION. The host-program notation (spec/30_encoding.md R96 to R98): each line as the host accesses it stands
for. -/

namespace Sys2Proof.Machine

/-- `WR REG, v` (R96). -/
def wr (r : Reg) (v : Word) : List Input := [.write r.offset 4 v]

/-- `RD REG` (R96). -/
def rd (r : Reg) : List Input := [.read r.offset 4]

/-- `WB MEM[i] = v0, v1, ...` (R96), for a byte-element memory. -/
def wb (m : MemId) : Nat → List Byte → List Input
  | _, [] => []
  | i, v :: rest => .write (m.start + i) 1 (v.setWidth 32) :: wb m (i + 1) rest

/-- `WH MEM[i] = v0, v1, ...` (R96), for a 16-bit memory; each value is taken modulo 2^16. -/
def wh (m : MemId) : Nat → List Int → List Input
  | _, [] => []
  | i, v :: rest => .write (m.start + 2 * i) 2 ((BitVec.ofInt 16 v).setWidth 32) :: wh m (i + 1) rest

/-- `CMD m` (R96). -/
def cmdWrite (i : Instr) : List Input := [.write 0x00C 4 (encode i)]

/-- `WAIT` (R97). -/
def waitBusy : List Input := [.wait]

/-- `CLRST` (R97): clears DONE, ERR and OVR. -/
def clrst : List Input := wr .status 0xE

/-- `SEG_TX` (R97). -/
def segTx : List Input := cmdWrite .markf ++ waitBusy ++ cmdWrite .rmil ++ waitBusy

/-- `SEG_RX[.cf]` (R97). -/
def segRx (cf : Bool) : List Input := cmdWrite (if cf then .dildmCf else .dildm) ++ waitBusy

end Sys2Proof.Machine
end

