-- ==== Sys2Proof/Safety.lean ====
section
/-! DEFINITION. The terms claims are stated in: the legal parameters of each command, written out from
spec/60_exceptions.md R193 and R196 as inequalities, and the invariant of the machine. -/

namespace Sys2Proof.Machine

/-! ### Legal parameters -/

/-- BG and Z in their domains (R35, R36). -/
def BgZLegal (c : Config) (p : Params) : Prop := (p.bgN = 1 ∨ p.bgN = 2) ∧ 1 ≤ p.zN ∧ p.zN ≤ c.zMax

/-- The parameters of every selecting command (R193: BG_RANGE, Z_RANGE, RV_RANGE, C_ZERO, E_ZERO, FOFF_GT_E,
FOFF_GT_NCB, NO_USABLE). -/
def SelectorLegal (c : Config) (p : Params) : Prop :=
  BgZLegal c p ∧ p.rvN ≤ 3 ∧ 1 ≤ p.cN ∧ 1 ≤ p.eN ∧ p.foffN ≤ p.eN ∧ p.foffN ≤ selNcb p ∧ 1 ≤ selU p

/-- QM in its domain and E a positive multiple of it (R152, R193, R194). -/
def QmLegal (p : Params) : Prop :=
  (p.qmN = 2 ∨ p.qmN = 4 ∨ p.qmN = 6 ∨ p.qmN = 8) ∧ 1 ≤ p.eN ∧ p.eN % p.qmN = 0

/-- MARKF's parameters (R165, R193). -/
def MarkfLegal (c : Config) (p : Params) : Prop := BgZLegal c p ∧ 2 ≤ p.sentN ∧ p.foffN + p.fN ≤ selN p

/-- RM's parameters (R126). -/
def RmLegal (c : Config) (p : Params) : Prop := SelectorLegal c p ∧ p.eN ≤ c.eMax

/-- DM's parameters (R136). -/
def DmLegal (c : Config) (p : Params) : Prop := SelectorLegal c p ∧ p.eN ≤ c.eMax ∧ p.harqN + selNcb p ≤ c.hSize

/-- IL's parameters (R151). -/
def IlLegal (c : Config) (p : Params) : Prop := QmLegal p ∧ p.eN ≤ c.eMax ∧ p.outN + p.eN ≤ c.gMax

/-- DIL's parameters (R153). -/
def DilLegal (c : Config) (p : Params) : Prop := QmLegal p ∧ p.eN ≤ c.eMax ∧ p.rxN + p.eN ≤ c.gMax

/-- RMIL's parameters (R168). -/
def RmilLegal (c : Config) (p : Params) : Prop := RmLegal c p ∧ IlLegal c p

/-- DILDM's parameters (R170). -/
def DildmLegal (c : Config) (p : Params) : Prop := DmLegal c p ∧ DilLegal c p

/-- The parameters with which each command succeeds (R198). -/
def Legal (c : Config) : Instr → Params → Prop
  | .select, p => SelectorLegal c p
  | .markf, p => MarkfLegal c p
  | .rm, p => RmLegal c p
  | .dm, p => DmLegal c p
  | .dmCf, p => DmLegal c p
  | .il, p => IlLegal c p
  | .dil, p => DilLegal c p
  | .rmil, p => RmilLegal c p
  | .dildm, p => DildmLegal c p
  | .dildmCf, p => DildmLegal c p
  | .nop, _ => True
  | .clrerr, _ => True
  | .rmSkip, _ => True
  | .dmSkip, _ => True
  | .ilSkip, _ => True
  | .dilSkip, _ => True
  | .rmilSkip, _ => True
  | .dildmSkip, _ => True

/-- One check of a row (R197): its error when its condition holds, else what the rest of the row gives. -/
def raiseIf (c : Prop) [Decidable c] (r : Reason) (rest : Option Reason) : Option Reason := if c then some r else rest

/-! ### Combining, element by element -/

/-- The positions `j` of the LLRs that one DM adds into HARQ element `i`, in increasing `j` (R136, R138). -/
def hits (c : Config) (p : Params) (i : Nat) : List Nat := (List.range p.eN).filter fun j => sel c p j == i

/-- One HARQ element after the additions of R136: from `acc`, the LLRs at these positions, one saturating addition each,
in this order. -/
def combineHits (acc : Half) (llr : Nat → Half) (js : List Nat) : Half := js.foldl (fun a j => combine a (llr j)) acc

/-- The exact sum of the LLRs at these positions (R140, R141). -/
def llrSum (llr : Nat → Half) (js : List Nat) : Int := (js.map fun j => (llr j).toInt).sum

/-- No intermediate sum leaves the 16-bit range (R138). -/
def NoSaturation (acc : Int) (llr : Nat → Half) (js : List Nat) : Prop :=
  ∀ k, k ≤ js.length → -32768 ≤ acc + llrSum llr (js.take k) ∧ acc + llrSum llr (js.take k) ≤ 32767

/-! ### Invariants -/

/-- Every listed byte lies in the mapped part of some memory (R66, R70). -/
def Memory.Mapped (m : Memory) (c : Config) : Prop := ∀ x ∈ m.cells, (MemId.ofAddr c x.1).isSome

/-- ERRCODE, ERRCMD and ERR agree (R34, R191, R195): either nothing is recorded, or ERRCMD is a word that can be
rejected with exactly the recorded code. -/
def ErrorRecord (s : State) : Prop :=
  (s.errcode = 0 ∧ s.errcmd = 0 ∧ s.err = false) ∨
  (∃ d, decode s.errcmd = .illegal d ∧ s.errcode = (Reason.illegalCommand d).code) ∨
  (∃ i k, decode s.errcmd = .cmd i ∧ k ∈ checksOf i ∧ s.errcode = k.reason.code)

/-- The result registers hold nothing yet, or what a selection on legal parameters leaves (R45, R107 to R112). -/
def ResultsOfSelection (s : State) : Prop :=
  (s.k0raw = 0 ∧ s.k0 = 0 ∧ s.ncb = 0 ∧ s.usable = 0) ∨
  ∃ p : Params, SelectorLegal s.cfg p ∧ s.k0raw = BitVec.ofNat 32 (selK0raw s.cfg p)
    ∧ s.k0 = BitVec.ofNat 32 (selK0 s.cfg p) ∧ s.ncb = BitVec.ofNat 32 (selNcb p) ∧ s.usable = BitVec.ofNat 32 (selU p)

/-- The result registers hold nothing yet, or values within the bounds of a selection (R109, R112, R114). -/
def ResultsInRange (s : State) : Prop :=
  (s.k0raw = 0 ∧ s.k0 = 0 ∧ s.ncb = 0 ∧ s.usable = 0) ∨
  (s.k0raw.toNat < s.ncb.toNat ∧ s.k0.toNat < s.ncb.toNat ∧ 1 ≤ s.usable.toNat ∧ s.usable.toNat ≤ s.ncb.toNat
    ∧ s.ncb.toNat ≤ s.cfg.dSize)

/-- OUTLEN is at most E_MAX, or D_SIZE after a MARKF (R42, R45, R165). -/
def OutlenInRange (s : State) : Prop := s.outlen.toNat ≤ s.cfg.eMax ∨ s.outlen.toNat ≤ s.cfg.dSize

/-- The invariant of the machine. -/
structure Inv (s : State) : Prop where
  /-- The parameters meet the constraints on them (R9). -/
  valid : s.cfg.Valid
  /-- The memory list is in its canonical form. -/
  wf : s.mem.wf
  /-- Nothing outside the six memories has been written (R66). -/
  mapped : s.mem.Mapped s.cfg
  /-- A command in flight has not completed (R29, R30). -/
  busyDone : s.busy = true → s.done = false
  /-- The hazard belongs to a command in flight (R240). -/
  hazardBusy : s.hazard = true → s.busy = true
  /-- The error record is consistent (R34). -/
  record : ErrorRecord s
  /-- The result registers describe a selection (R45). -/
  results : ResultsOfSelection s
  /-- The result registers are in range (R114). -/
  bounds : ResultsInRange s
  /-- OUTLEN is in range. -/
  outlen : OutlenInRange s

end Sys2Proof.Machine
end

