-- ==== Sys2Proof/Certificates/Slice0/Obligations.lean ====
section
/-! DEFINITION. The statements for the provers: what the spec's numbered rules say of the commands, the selector, the bus,
the resets and the whole machine. Each docstring names the rules it formalises. -/

open Sys2Proof Sys2Proof.Machine

/-! ### Encoding -/

/-- Some words of R89 and R91, written out from the fields of R86 (spec/95_test_vectors.md section 2.8). -/
def Obligations.TableWordsDecode : Prop :=
  decode 0x00000000 = .cmd .nop ∧ decode 0x00000001 = .cmd .select ∧ decode 0x00000002 = .cmd .markf
  ∧ decode 0x00000203 = .cmd .rmSkip ∧ decode 0x00000104 = .cmd .dmCf ∧ decode 0x00000005 = .cmd .il
  ∧ decode 0x00000206 = .cmd .dilSkip ∧ decode 0x00000007 = .cmd .rmil ∧ decode 0x00000108 = .cmd .dildmCf
  ∧ decode 0x00000009 = .cmd .clrerr
  ∧ decode 0x0000031A = .illegal .rsvOp ∧ decode 0x00000215 = .illegal .rsvBits
  ∧ decode 0x80000000 = .illegal .rsvBits ∧ decode 0x00000103 = .illegal .badFlag
  ∧ decode 0x00000201 = .illegal .badFlag ∧ decode 0x00000304 = .illegal .cfSkip

/-- Decoding and encoding are inverse on all 2^32 words: each well-formed command's word decodes to it, and no other
word does (R86, R89, R94). -/
def Obligations.DecodeInvertsEncode : Prop :=
  (∀ i : Instr, i.WellFormed ∧ decode (encode i) = .cmd i) ∧ ∀ (w : Word) (i : Instr), decode w = .cmd i → w = encode i

/-- R91: the four conditions over the fields, in the rule's order, decide what an illegal word is rejected with; a word
that meets none is a command. -/
def Obligations.IllegalWordsInOrder : Prop :=
  ∀ w : Word,
    (decode w = .illegal .rsvOp ↔ 0xA ≤ (fieldsOf w).op.toNat)
    ∧ (decode w = .illegal .rsvBits ↔
        (fieldsOf w).op.toNat < 0xA ∧ ((fieldsOf w).rsva ≠ 0 ∨ (fieldsOf w).rsvb ≠ 0))
    ∧ (decode w = .illegal .badFlag ↔
        (fieldsOf w).op.toNat < 0xA ∧ (fieldsOf w).rsva = 0 ∧ (fieldsOf w).rsvb = 0
        ∧ (((fieldsOf w).cf = true ∧ (fieldsOf w).permitsCf = false)
          ∨ ((fieldsOf w).skip = true ∧ (fieldsOf w).permitsSkip = false)))
    ∧ (decode w = .illegal .cfSkip ↔
        (fieldsOf w).op.toNat < 0xA ∧ (fieldsOf w).rsva = 0 ∧ (fieldsOf w).rsvb = 0
        ∧ (fieldsOf w).cf = true ∧ (fieldsOf w).skip = true ∧ (fieldsOf w).permitsCf = true)
    ∧ ((∃ i, decode w = .cmd i) ↔ (fieldsOf w).WellFormed)

/-- R92: exactly these 18 of the 2^32 words are legal, one for NOP, SELECT, MARKF and CLRERR, two for RM, IL, DIL and
RMIL, three for DM and DILDM. -/
def Obligations.EighteenLegalWords : Prop :=
  let words : List Word := [0x000, 0x001, 0x002, 0x003, 0x203, 0x004, 0x104, 0x204, 0x005, 0x205, 0x006, 0x206, 0x007,
    0x207, 0x008, 0x108, 0x208, 0x009]
  (∀ w : Word, (∃ i, decode w = .cmd i) ↔ w ∈ words)
  ∧ words.Nodup ∧ words.length = 18
  ∧ ([0, 1, 2, 3, 4, 5, 6, 7, 8, 9].map fun k : BitVec 4 => (words.filter fun w => (fieldsOf w).op == k).length)
      = [1, 1, 1, 2, 3, 2, 2, 2, 3, 1]

/-! ### The step -/

/-- When the engine moves next and its word decodes to a command, the step is that command's meaning (R48, R88). WHEN the
engine moves (its latency is over, or the host has nothing left to do) is the model's choice, log 3. -/
def Obligations.StepRunsDecodedCommand : Prop :=
  ∀ (s : State) (i : Instr), s.busy = true → (s.latency = 0 ∨ s.inbox = []) → decode s.cmd = .cmd i → i.WellFormed →
    step s = exec i s

/-- When the engine moves next and its word is illegal, the step rejects it with IllegalCommand: only ERRCODE, ERRCMD
and STATUS change (R88, R91, R199, R200). When the engine moves next is the model's choice, log 3. -/
def Obligations.StepRejectsIllegalWord : Prop :=
  ∀ (s : State) (d : Illegal), s.busy = true → (s.latency = 0 ∨ s.inbox = []) → decode s.cmd = .illegal d →
    step s = .next { s with
      errcode := (match d with | .rsvOp => 0x0301 | .rsvBits => 0x0302 | .badFlag => 0x0303 | .cfSkip => 0x0304),
      errcmd := s.cmd, err := true, busy := false, done := true, hazard := false, latency := 0 }

/-- When the engine does not move next, the step is the host's next access, the command in flight one host step nearer
its completion; with no access left and no command in flight nothing changes (R79, R230, R250). The list of accesses, the
countdown and the idle step are the model's, log 3, 4 and 16. -/
def Obligations.StepMakesNextAccess : Prop :=
  (∀ (s : State) (x : Input) (rest : List Input), (s.busy = false ∨ s.latency ≠ 0) → s.inbox = x :: rest →
    step s = input { s with inbox := rest, latency := s.latency - 1 } x)
  ∧ ∀ s : State, s.busy = false → s.inbox = [] → step s = .next s

/-! ### The commands: completion and result -/

/-- NOP (R180): OUTLEN = 0 and completion, nothing else; with no error history STATUS is then DONE alone. -/
def Obligations.NopCompletes : Prop :=
  ∀ s : State,
    exec .nop s = .next { s with outlen := 0, busy := false, done := true, hazard := false, latency := 0 }
    ∧ (s.err = false → s.ovr = false → ∀ t, exec .nop s = .next t → t.statusWord = 0x2)

/-- CLRERR (R182): ERRCODE, ERRCMD, ERR, OVR and OUTLEN zero, then completion, nothing else. -/
def Obligations.ClrerrClearsErrorState : Prop :=
  ∀ s : State,
    exec .clrerr s = .next { s with
      errcode := 0, errcmd := 0, err := false, ovr := false, outlen := 0, busy := false, done := true, hazard := false,
      latency := 0 }

/-- The six SKIP commands, whatever the parameters hold: OUTLEN = 0 and completion, no memory write, no other register
change beyond STATUS (R87; spec/95_test_vectors.md M12, I7, C8). -/
def Obligations.SkipCommandsChangeNothing : Prop :=
  ∀ i ∈ [Instr.rmSkip, .dmSkip, .ilSkip, .dilSkip, .rmilSkip, .dildmSkip], ∀ s : State,
    exec i s = .next { s with outlen := 0, busy := false, done := true, hazard := false, latency := 0 }

/-- SELECT on legal parameters (R106, R108, R111, R112, R115): the result registers hold the values of the formulas,
written out here from the rules; OUTLEN = 0; nothing else changes. -/
def Obligations.SelectComputesSelection : Prop :=
  ∀ s : State, SelectorLegal s.cfg s.snap →
    let p := s.snap
    let n := if p.bg.toNat = 1 then 66 * p.z.toNat else 50 * p.z.toNat
    let ncb := if p.tbslbrm.toNat = 0 then n else min n (3 * p.tbslbrm.toNat / (2 * p.c.toNat))
    let k0tab := if p.bg.toNat = 1 then s.cfg.k0tab1 else s.cfg.k0tab2
    let k0raw := k0tab.getD p.rv.toNat 0 * ncb / n * p.z.toNat
    let fillerEnd := p.foff.toNat + p.f.toNat
    let advanced := if p.foff.toNat ≤ k0raw ∧ k0raw < fillerEnd then fillerEnd else k0raw
    let k0 := if advanced ≥ ncb then 0 else advanced
    let usable := ncb - (min fillerEnd ncb - p.foff.toNat)
    exec .select s = .next { s with
      k0raw := BitVec.ofNat 32 k0raw, k0 := BitVec.ofNat 32 k0, ncb := BitVec.ofNat 32 ncb,
      usable := BitVec.ofNat 32 usable, outlen := 0, busy := false, done := true, hazard := false, latency := 0 }

/-- MARKF on legal parameters (R165): DMEM[FOFF, FOFF + F) holds the sentinel, every other byte of memory and every
register but OUTLEN and STATUS is unchanged. -/
def Obligations.MarkfMarksFillerRegion : Prop :=
  ∀ s : State, MarkfLegal s.cfg s.snap → s.hazard = false → ∃ t, exec .markf s = .next t
    ∧ (∀ k < s.snap.fN, t.mem.bit .dmem (s.snap.foffN + k) = s.snap.sentinel)
    ∧ (∀ a, (MemId.dmem.range s.snap.foffN s.snap.fN).has a = false → t.mem.readByte a = s.mem.readByte a)
    ∧ t = { s with
        mem := t.mem, outlen := BitVec.ofNat 32 s.snap.fN, busy := false, done := true, latency := 0 }

/-- RM on legal parameters (R125, R126, R127): EMEM[j] is DMEM[Sel(j)] for each of the E positions, OUTLEN = E, the
result registers hold the selection, every byte outside EMEM[0, E) and every other register is unchanged. -/
def Obligations.RmCopiesSelectedElements : Prop :=
  ∀ s : State, RmLegal s.cfg s.snap → s.hazard = false → ∃ t, exec .rm s = .next t
    ∧ (∀ j < s.snap.eN, t.mem.bit .emem j = s.mem.bit .dmem (sel s.cfg s.snap j))
    ∧ (∀ a, (MemId.emem.range 0 s.snap.eN).has a = false → t.mem.readByte a = s.mem.readByte a)
    ∧ t = { s with
        mem := t.mem, k0raw := BitVec.ofNat 32 (selK0raw s.cfg s.snap), k0 := BitVec.ofNat 32 (selK0 s.cfg s.snap),
        ncb := BitVec.ofNat 32 (selNcb s.snap), usable := BitVec.ofNat 32 (selU s.snap), outlen := s.snap.e,
        busy := false, done := true, latency := 0 }

/-- R129: RM's output repeats the usable elements cyclically. -/
def Obligations.RmRepeatsCyclically : Prop :=
  ∀ s t : State, RmLegal s.cfg s.snap → s.hazard = false → exec .rm s = .next t →
    ∀ j < s.snap.eN, t.mem.bit .emem j = t.mem.bit .emem (j % selU s.snap)

/-- R128: when no usable element of DMEM[0, Ncb) holds a value (the sentinel, say), no element RM writes holds it. -/
def Obligations.RmOutputHasNoFillerValue : Prop :=
  ∀ (s t : State) (v : Byte), RmLegal s.cfg s.snap → s.hazard = false → exec .rm s = .next t →
    (∀ i < selNcb s.snap, ¬(s.snap.foffN ≤ i ∧ i < s.snap.foffN + s.snap.fN) → s.mem.bit .dmem i ≠ v) →
    ∀ j < s.snap.eN, t.mem.bit .emem j ≠ v

/-- DM on legal parameters (R136, R137, R138): accumulator i of the HARQ buffer receives the LLRs of the positions j with
Sel(j) = i, in increasing j, one saturating addition each; all else as for RM. -/
def Obligations.DmCombinesInOrder : Prop :=
  ∀ s : State, DmLegal s.cfg s.snap → s.hazard = false → ∃ t, exec .dm s = .next t
    ∧ (∀ i < selNcb s.snap, t.mem.half .hmem (s.snap.harqN + i)
        = combineHits (s.mem.half .hmem (s.snap.harqN + i)) (fun j => s.mem.half .lmem j) (hits s.cfg s.snap i))
    ∧ (∀ a, (MemId.hmem.range s.snap.harqN (selNcb s.snap)).has a = false → t.mem.readByte a = s.mem.readByte a)
    ∧ t = { s with
        mem := t.mem, k0raw := BitVec.ofNat 32 (selK0raw s.cfg s.snap), k0 := BitVec.ofNat 32 (selK0 s.cfg s.snap),
        ncb := BitVec.ofNat 32 (selNcb s.snap), usable := BitVec.ofNat 32 (selU s.snap), outlen := s.snap.e,
        busy := false, done := true, latency := 0 }

/-- DM.cf on legal parameters (R136, R139): as DM from an accumulator of 0, so an index never selected, filler indices
included, holds 0 afterwards. -/
def Obligations.DmCfClearsThenCombines : Prop :=
  ∀ s : State, s.cfg.Valid → DmLegal s.cfg s.snap → s.hazard = false → ∃ t, exec .dmCf s = .next t
    ∧ (∀ i < selNcb s.snap, t.mem.half .hmem (s.snap.harqN + i)
        = combineHits 0 (fun j => s.mem.half .lmem j) (hits s.cfg s.snap i))
    ∧ (∀ i < selNcb s.snap, s.snap.foffN ≤ i → i < s.snap.foffN + s.snap.fN →
        t.mem.half .hmem (s.snap.harqN + i) = 0)
    ∧ (∀ a, (MemId.hmem.range s.snap.harqN (selNcb s.snap)).has a = false → t.mem.readByte a = s.mem.readByte a)
    ∧ t = { s with
        mem := t.mem, k0raw := BitVec.ofNat 32 (selK0raw s.cfg s.snap), k0 := BitVec.ofNat 32 (selK0 s.cfg s.snap),
        ncb := BitVec.ofNat 32 (selNcb s.snap), usable := BitVec.ofNat 32 (selU s.snap), outlen := s.snap.e,
        busy := false, done := true, latency := 0 }

/-- R137: one combining step adds the signed 16-bit values exactly and saturates. -/
def Obligations.CombineSaturates : Prop :=
  ∀ acc llr : Half, (combine acc llr).toInt = max (-32768) (min 32767 (acc.toInt + llr.toInt))

/-- R138: when no intermediate sum leaves the 16-bit range the result is the exact sum, so the order of the additions
does not matter; in general it does. -/
def Obligations.OrderMattersOnlyUnderSaturation : Prop :=
  (∀ (acc : Half) (llr : Nat → Half) (js : List Nat), NoSaturation acc.toInt llr js →
    (combineHits acc llr js).toInt = acc.toInt + llrSum llr js)
  ∧ (∀ (acc : Half) (llr : Nat → Half) (js ks : List Nat), js.Perm ks → NoSaturation acc.toInt llr js →
    NoSaturation acc.toInt llr ks → combineHits acc llr js = combineHits acc llr ks)
  ∧ ∃ (acc : Half) (llr : Nat → Half) (js ks : List Nat), js.Perm ks ∧ combineHits acc llr js ≠ combineHits acc llr ks

/-- R140, R141: DM after DM.cf with the same parameters and LLRs doubles every accumulator whose sums stay in range. -/
def Obligations.SecondCombineDoubles : Prop :=
  ∀ s : State, s.cfg.Valid → DmLegal s.cfg s.snap → s.hazard = false →
    ∃ t u, exec .dmCf s = .next t ∧ exec .dm t = .next u
    ∧ ∀ i < selNcb s.snap,
        NoSaturation 0 (fun j => s.mem.half .lmem j) (hits s.cfg s.snap i ++ hits s.cfg s.snap i) →
        (u.mem.half .hmem (s.snap.harqN + i)).toInt = 2 * (t.mem.half .hmem (s.snap.harqN + i)).toInt

/-- R140: what DM.cf leaves in the HARQ buffer does not depend on what the buffer, or any memory but LMEM[0, E), held
before: two runs that agree on the parameters of R8, the snapshot and LMEM[0, E) leave the same accumulators. -/
def Obligations.ClearDiscardsHistory : Prop :=
  ∀ s s' t t' : State, s.cfg.Valid → s.cfg = s'.cfg → s.snap = s'.snap → DmLegal s.cfg s.snap → s.hazard = false →
    s'.hazard = false →
    (∀ j < s.snap.eN, s.mem.half .lmem j = s'.mem.half .lmem j) →
    exec .dmCf s = .next t → exec .dmCf s' = .next t' →
    ∀ i < selNcb s.snap, t.mem.half .hmem (s.snap.harqN + i) = t'.mem.half .hmem (s.snap.harqN + i)

/-- IL on legal parameters (R150, R151): OMEM[OUT_OFFSET + i*Qm + q] is EMEM[q*L + i]; OUTLEN = E; every byte outside
OMEM[OUT_OFFSET, OUT_OFFSET + E) and every other register is unchanged. -/
def Obligations.IlInterleaves : Prop :=
  ∀ s : State, IlLegal s.cfg s.snap → s.hazard = false → ∃ t, exec .il s = .next t
    ∧ (∀ i < s.snap.eN / s.snap.qmN, ∀ q < s.snap.qmN,
        t.mem.bit .omem (s.snap.outN + (i * s.snap.qmN + q)) = s.mem.bit .emem (q * (s.snap.eN / s.snap.qmN) + i))
    ∧ (∀ a, (MemId.omem.range s.snap.outN s.snap.eN).has a = false → t.mem.readByte a = s.mem.readByte a)
    ∧ t = { s with mem := t.mem, outlen := s.snap.e, busy := false, done := true, latency := 0 }

/-- DIL on legal parameters (R150, R153): LMEM[q*L + i] is RMEM[RX_OFFSET + i*Qm + q]; OUTLEN = E; every byte outside
LMEM[0, E) and every other register is unchanged. -/
def Obligations.DilDeinterleaves : Prop :=
  ∀ s : State, DilLegal s.cfg s.snap → s.hazard = false → ∃ t, exec .dil s = .next t
    ∧ (∀ i < s.snap.eN / s.snap.qmN, ∀ q < s.snap.qmN,
        t.mem.half .lmem (q * (s.snap.eN / s.snap.qmN) + i) = s.mem.half .rmem (s.snap.rxN + (i * s.snap.qmN + q)))
    ∧ (∀ a, (MemId.lmem.range 0 s.snap.eN).has a = false → t.mem.readByte a = s.mem.readByte a)
    ∧ t = { s with mem := t.mem, outlen := s.snap.e, busy := false, done := true, latency := 0 }

/-- R154: the index maps of IL and DIL are mutually inverse on [0, L*Qm), and de-interleaving an interleaved sequence
gives the sequence back. -/
def Obligations.DeinterleaveInvertsInterleave : Prop :=
  ∀ l qm : Nat, 1 ≤ qm →
    (∀ k < l * qm, (interleaveIndices l qm).getD ((deinterleaveIndices l qm).getD k 0) 0 = k)
    ∧ (∀ k < l * qm, (deinterleaveIndices l qm).getD ((interleaveIndices l qm).getD k 0) 0 = k)
    ∧ ∀ x : List Half, x.length = l * qm →
        (deinterleaveIndices l qm).map (fun k => ((interleaveIndices l qm).map fun j => x.getD j 0).getD k 0) = x

/-- RMIL on legal parameters (R168): EMEM[j] is DMEM[Sel(j)], OMEM[OUT_OFFSET + i*Qm + q] is DMEM[Sel(q*L + i)]; the
bytes outside both ranges and the registers as for RM. -/
def Obligations.RmilSelectsAndInterleaves : Prop :=
  ∀ s : State, s.cfg.Valid → RmilLegal s.cfg s.snap → s.hazard = false → ∃ t, exec .rmil s = .next t
    ∧ (∀ j < s.snap.eN, t.mem.bit .emem j = s.mem.bit .dmem (sel s.cfg s.snap j))
    ∧ (∀ i < s.snap.eN / s.snap.qmN, ∀ q < s.snap.qmN,
        t.mem.bit .omem (s.snap.outN + (i * s.snap.qmN + q))
          = s.mem.bit .dmem (sel s.cfg s.snap (q * (s.snap.eN / s.snap.qmN) + i)))
    ∧ (∀ a, anyHas [MemId.emem.range 0 s.snap.eN, MemId.omem.range s.snap.outN s.snap.eN] a = false →
        t.mem.readByte a = s.mem.readByte a)
    ∧ t = { s with
        mem := t.mem, k0raw := BitVec.ofNat 32 (selK0raw s.cfg s.snap), k0 := BitVec.ofNat 32 (selK0 s.cfg s.snap),
        ncb := BitVec.ofNat 32 (selNcb s.snap), usable := BitVec.ofNat 32 (selU s.snap), outlen := s.snap.e,
        busy := false, done := true, latency := 0 }

/-- R169: RMIL's whole outcome is that of RM followed by IL with the same parameters when the checks pass; where IL's
checks fail, RMIL is rejected and nothing of the RM part happens: no memory, result register or OUTLEN changes. -/
def Obligations.RmilIsRmThenIl : Prop :=
  (∀ s : State, RmilLegal s.cfg s.snap → s.hazard = false → ∃ t, exec .rm s = .next t ∧ exec .rmil s = exec .il t)
  ∧ ∀ s : State, ¬IlLegal s.cfg s.snap → ∃ t, exec .rmil s = .next t
    ∧ t = { s with
        errcode := t.errcode, errcmd := s.cmd, err := true, busy := false, done := true, hazard := false, latency := 0 }

/-- DILDM and DILDM.cf on legal parameters (R170): LMEM[q*L + i] is RMEM[RX_OFFSET + i*Qm + q], then the accumulators
combine those LLRs, from their old values or from 0; the bytes outside both ranges and the registers as for DM. -/
def Obligations.DildmDeinterleavesAndCombines : Prop :=
  ∀ s : State, s.cfg.Valid → DildmLegal s.cfg s.snap → s.hazard = false →
    ∀ x ∈ [(Instr.dildm, fun i => s.mem.half .hmem (s.snap.harqN + i)), (Instr.dildmCf, fun _ => (0 : Half))],
    ∃ t, exec x.1 s = .next t
    ∧ (∀ i < s.snap.eN / s.snap.qmN, ∀ q < s.snap.qmN,
        t.mem.half .lmem (q * (s.snap.eN / s.snap.qmN) + i) = s.mem.half .rmem (s.snap.rxN + (i * s.snap.qmN + q)))
    ∧ (∀ i < selNcb s.snap, t.mem.half .hmem (s.snap.harqN + i)
        = combineHits (x.2 i) (fun j => t.mem.half .lmem j) (hits s.cfg s.snap i))
    ∧ (∀ a, anyHas [MemId.lmem.range 0 s.snap.eN, MemId.hmem.range s.snap.harqN (selNcb s.snap)] a = false →
        t.mem.readByte a = s.mem.readByte a)
    ∧ t = { s with
        mem := t.mem, k0raw := BitVec.ofNat 32 (selK0raw s.cfg s.snap), k0 := BitVec.ofNat 32 (selK0 s.cfg s.snap),
        ncb := BitVec.ofNat 32 (selNcb s.snap), usable := BitVec.ofNat 32 (selU s.snap), outlen := s.snap.e,
        busy := false, done := true, latency := 0 }

/-- R171: DILDM's whole outcome is that of DIL followed by DM with the same parameters and flags. -/
def Obligations.DildmIsDilThenDm : Prop :=
  ∀ s : State, DildmLegal s.cfg s.snap → s.hazard = false →
    ∃ t, exec .dil s = .next t ∧ exec .dildm s = exec .dm t ∧ exec .dildmCf s = exec .dmCf t

/-! ### Validation and rejection -/

/-- R193, R196, R198: a command passes validation exactly when its parameters meet the inequalities of its row. -/
def Obligations.AcceptedIffLegal : Prop :=
  ∀ (c : Config) (i : Instr) (p : Params), validate c i p = none ↔ Legal c i p

/-- R87, R196, R197, R198: the row of every command, each check written out, in the order the rule gives; the commands
with SKIP = 1, NOP and CLRERR check nothing. -/
def Obligations.ChecksInOrder : Prop :=
  ∀ (conf : Config) (p : Params),
    let bg := raiseIf (¬(p.bgN = 1 ∨ p.bgN = 2)) (.invalidParameter .bgRange)
    let z := raiseIf (p.zN = 0 ∨ conf.zMax < p.zN) (.invalidParameter .zRange)
    let rv := raiseIf (3 < p.rvN) (.invalidParameter .rvRange)
    let c := raiseIf (p.cN = 0) (.invalidParameter .cZero)
    let qm := raiseIf (¬(p.qmN = 2 ∨ p.qmN = 4 ∨ p.qmN = 6 ∨ p.qmN = 8)) .unsupportedModulationOrder
    let ez := raiseIf (p.eN = 0) (.invalidParameter .eZero)
    let eq := raiseIf (p.eN % p.qmN ≠ 0) (.invalidParameter .eNotMultQm)
    let fe := raiseIf (p.eN < p.foffN) (.invalidParameter .foffGtE)
    let fn := raiseIf (selNcb p < p.foffN) (.invalidParameter .foffGtNcb)
    let bufE := raiseIf (conf.eMax < p.eN) (.invalidParameter .bufRange)
    let bufOut := raiseIf (conf.gMax < p.outN + p.eN) (.invalidParameter .bufRange)
    let bufRx := raiseIf (conf.gMax < p.rxN + p.eN) (.invalidParameter .bufRange)
    let bufHarq := raiseIf (conf.hSize < p.harqN + selNcb p) (.invalidParameter .bufRange)
    let nu := raiseIf (selU p = 0) (.invalidParameter .noUsable)
    let sn := raiseIf (p.sentN = 0 ∨ p.sentN = 1) (.invalidParameter .sentinelRange)
    let fr := raiseIf (selN p < p.foffN + p.fN) (.invalidParameter .fillerRange)
    validate conf .select p = bg (z (rv (c (ez (fe (fn (nu none)))))))
    ∧ validate conf .markf p = bg (z (sn (fr none)))
    ∧ validate conf .rm p = bg (z (rv (c (ez (fe (fn (bufE (nu none))))))))
    ∧ validate conf .dm p = bg (z (rv (c (ez (fe (fn (bufE (bufHarq (nu none)))))))))
    ∧ validate conf .dmCf p = validate conf .dm p
    ∧ validate conf .il p = qm (ez (eq (bufE (bufOut none))))
    ∧ validate conf .dil p = qm (ez (eq (bufE (bufRx none))))
    ∧ validate conf .rmil p = bg (z (rv (c (qm (ez (eq (fe (fn (bufE (bufOut (nu none)))))))))))
    ∧ validate conf .dildm p = bg (z (rv (c (qm (ez (eq (fe (fn (bufE (bufRx (bufHarq (nu none))))))))))))
    ∧ validate conf .dildmCf p = validate conf .dildm p
    ∧ ∀ i ∈ [Instr.nop, .clrerr, .rmSkip, .dmSkip, .ilSkip, .dilSkip, .rmilSkip, .dildmSkip], validate conf i p = none

/-- R191 to R194, R199, R200, R202: a rejected command writes ERRCODE, with the code of its error written out here,
ERRCMD and STATUS, over whatever error was recorded, and nothing else. -/
def Obligations.RejectionIsPrecise : Prop :=
  ∀ (i : Instr) (s : State) (r : Reason), validate s.cfg i s.snap = some r →
    let code : Half := match r with
      | .invalidParameter .cZero => 0x0101
      | .invalidParameter .foffGtE => 0x0102
      | .invalidParameter .foffGtNcb => 0x0103
      | .invalidParameter .bgRange => 0x0104
      | .invalidParameter .zRange => 0x0105
      | .invalidParameter .rvRange => 0x0106
      | .invalidParameter .eZero => 0x0107
      | .invalidParameter .eNotMultQm => 0x0108
      | .invalidParameter .noUsable => 0x0109
      | .invalidParameter .bufRange => 0x010A
      | .invalidParameter .fillerRange => 0x010B
      | .invalidParameter .sentinelRange => 0x010C
      | .unsupportedModulationOrder => 0x0200
      | .illegalCommand .rsvOp => 0x0301
      | .illegalCommand .rsvBits => 0x0302
      | .illegalCommand .badFlag => 0x0303
      | .illegalCommand .cfSkip => 0x0304
    exec i s = .next { s with
      errcode := code, errcmd := s.cmd, err := true, busy := false, done := true, hazard := false, latency := 0 }

/-- R234: a command word written right after reset, before any parameter register, is accepted; at its completion every
selecting command and MARKF is rejected with BG_RANGE, IL and DIL with UnsupportedModulationOrder, while NOP and CLRERR
succeed. -/
def Obligations.CommandsAfterReset : Prop :=
  ∀ x ∈ [(Instr.select, (0x0104 : Half)), (.rm, 0x0104), (.dm, 0x0104), (.dmCf, 0x0104), (.rmil, 0x0104),
      (.dildm, 0x0104), (.dildmCf, 0x0104), (.markf, 0x0104), (.il, 0x0200), (.dil, 0x0200), (.nop, 0), (.clrerr, 0)],
    ∃ t u, hostWrite State.reset 0x00C 4 (encode x.1) = .next t ∧ t.busy = true ∧ t.cmd = encode x.1
      ∧ exec x.1 t = .next u ∧ u.errcode = x.2 ∧ u.errcmd = (if x.2 = 0 then 0 else encode x.1)
      ∧ u.statusWord = (if x.2 = 0 then 0x2 else 0x6)

/-- Every command, in every state, answers a next state with BUSY clear and DONE set, so with IRQ raised where IRQ_EN is
1; it leaves the parameters of R8, the parameter registers, the interrupt enable and every byte outside its write ranges,
disturbed or not (R47, R60, R66, R199, R205, R240). That the accepted word and the snapshot survive the completion is the
model's choice, log 9. -/
def Obligations.EveryCommandCompletesInItsRanges : Prop :=
  ∀ (i : Instr) (s : State), ∃ t, exec i s = .next t ∧ t.busy = false ∧ t.done = true ∧ t.hazard = false
    ∧ t.cfg = s.cfg ∧ t.params = s.params ∧ t.irqEn = s.irqEn ∧ t.irq = s.irqEn
    ∧ t.snap = s.snap ∧ t.cmd = s.cmd ∧ t.inbox = s.inbox ∧ t.resp = s.resp
    ∧ ∀ a, anyHas (writeRanges i s.snap) a = false → t.mem.readByte a = s.mem.readByte a

/-- R240 (U4): after a host access that broke the hazard rule, every byte in the write ranges of an accepted command is
a free value, and every other byte is unchanged; every register is as the same command leaves it undisturbed. Which free
value each byte gets, and the flag that records the breach, are the model's, log 6. -/
def Obligations.DisturbedCommandLeavesFreeValues : Prop :=
  ∀ (i : Instr) (s : State), Legal s.cfg i s.snap → s.hazard = true →
    ∃ t u, exec i s = .next t ∧ exec i { s with hazard := false } = .next u
      ∧ t = { u with mem := t.mem, freeCtr := s.freeCtr + (if writeRanges i s.snap = [] then 0 else 1) }
      ∧ ∀ a, t.mem.readByte a
          = if anyHas (writeRanges i s.snap) a then Config.freeByte s.freeCtr a else s.mem.readByte a

/-- R47: a command computes from the snapshot alone: other values in the live parameter registers change nothing but
those registers. -/
def Obligations.LiveParametersDoNotInterfere : Prop :=
  ∀ (i : Instr) (s : State) (p : Params), ∃ t, exec i s = .next t
    ∧ exec i { s with params := p } = .next { t with params := p }

/-! ### The selector -/

/-- R109: the raw start index by the rule's formula; it is below Ncb when the buffer is not empty, and 0 when it is. -/
def Obligations.RawStartInsideBuffer : Prop :=
  ∀ (c : Config) (p : Params), c.Valid → (p.bgN = 1 ∨ p.bgN = 2) → 1 ≤ p.zN → p.rvN ≤ 3 →
    selK0raw c p = (if p.bgN = 1 then c.k0tab1 else c.k0tab2).getD p.rvN 0 * selNcb p / selN p * p.zN
    ∧ (1 ≤ selNcb p → selK0raw c p < selNcb p) ∧ (selNcb p = 0 → selK0raw c p = 0)

/-- R114: the five properties of the selection sequence, for legal parameters. -/
def Obligations.SelectionProperties : Prop :=
  ∀ (c : Config) (p : Params), c.Valid → SelectorLegal c p →
    (∀ j, sel c p j < selNcb p)
    ∧ (∀ j, ¬(p.foffN ≤ sel c p j ∧ sel c p j < p.foffN + p.fN))
    ∧ (∀ j, sel c p (j + selU p) = sel c p j)
    ∧ (∀ i < selNcb p, ¬(p.foffN ≤ i ∧ i < p.foffN + p.fN) → p.eN / selU p ≤ (hits c p i).length)
    ∧ sel c p 0 = selK0 c p

/-- R113, R251: the loop of R113 selects the same indices as the closed form, whose one pass L has U indices, and ends
after visiting at most ceil(n / U) * Ncb positions. -/
def Obligations.LoopComputesSelection : Prop :=
  ∀ (c : Config) (p : Params) (n : Nat), SelectorLegal c p → (selOnePass c p).length = selU p
    ∧ selLoop c p ((n + selU p - 1) / selU p * selNcb p) (selK0 c p) n = (List.range n).map (sel c p)

/-! ### The bus -/

/-- R72, R73, R75: a host access answers a next state exactly when it is an aligned 4-byte access to a listed register
or an aligned 1, 2 or 4-byte access inside the mapped part of one memory; every other one is a fault. Recording a
bus error as a fault of the host's run follows R204, log 5. -/
def Obligations.IllegalAccessesAreBusErrors : Prop :=
  ∀ (s : State) (a n : Nat) (v : Word), s.cfg.Valid →
    let legal := (n = 4 ∧ ∃ r : Reg, a = r.offset)
      ∨ ((n = 1 ∨ n = 2 ∨ n = 4) ∧ a % n = 0 ∧ ∃ m : MemId, m.start ≤ a ∧ a + n ≤ m.start + m.bytes s.cfg)
    ((∃ t, hostRead s a n = .next t) ↔ legal) ∧ ((∃ f, hostRead s a n = .fault f) ↔ ¬legal)
    ∧ ((∃ t, hostWrite s a n v = .next t) ↔ legal) ∧ ((∃ f, hostWrite s a n v = .fault f) ↔ ¬legal)

/-- R71, R74: with no command in flight, a window write stores the low n bytes of the data, the least significant at the
lowest offset, changes no other byte and no register, and a read of the same access returns them, zero-extended to the
bus width (the zeros are the model's choice, log 17). -/
def Obligations.WindowWriteReadsBack : Prop :=
  ∀ (s : State) (a n : Nat) (v : Word) (m : MemId), s.cfg.Valid → s.busy = false → (n = 1 ∨ n = 2 ∨ n = 4) → a % n = 0 →
    m.start ≤ a → a + n ≤ m.start + m.bytes s.cfg →
    ∃ t u, hostWrite s a n v = .next t ∧ hostRead t a n = .next u
      ∧ (∀ k < n, t.mem.readByte (a + k) = v.extractLsb' (8 * k) 8)
      ∧ u.resp = .data (BitVec.ofNat 32 (v.toNat % 2 ^ (8 * n)))
      ∧ (∀ b, b < a ∨ a + n ≤ b → t.mem.readByte b = s.mem.readByte b)
      ∧ t = { s with mem := t.mem, resp := .written } ∧ u = { t with resp := u.resp }

/-- R71, R72: with no command in flight, in a 16-bit memory, a 2-byte write stores the element, and a 1-byte write stores
one lane and leaves the other. -/
def Obligations.ByteLanesOfHalfElements : Prop :=
  ∀ (s : State) (x : MemId) (i : Nat) (v : Word), s.cfg.Valid → s.busy = false → x.esz = 2 →
    i < x.elems s.cfg →
    (∃ t, hostWrite s (x.start + 2 * i) 2 v = .next t ∧ t.mem.half x i = v.extractLsb' 0 16)
    ∧ (∃ t, hostWrite s (x.start + 2 * i) 1 v = .next t
        ∧ t.mem.half x i = (s.mem.half x i).extractLsb' 8 8 ++ v.extractLsb' 0 8)
    ∧ (∃ t, hostWrite s (x.start + 2 * i + 1) 1 v = .next t
        ∧ t.mem.half x i = v.extractLsb' 0 8 ++ (s.mem.half x i).extractLsb' 0 8)

/-- R26, R34, R45, R77: at any time a read of a register answers its value and changes nothing else: the fields of
STATUS and CTRL, the last rejection's code and word, the parameter registers, the last results, in flight the previous
ones. With no command in flight no read, of a register or of memory, changes anything but the answer on the bus, and
repeating it gives the same answer. -/
def Obligations.ReadsHaveNoSideEffects : Prop :=
  (∀ (s : State) (r : Reg), hostRead s r.offset 4 = .next { s with resp := .data (s.readReg r) })
  ∧ (∀ s : State, s.readReg .errcode = (0 : Half) ++ s.errcode ∧ s.readReg .errcmd = s.errcmd
    ∧ [Reg.bg, .z, .c, .f, .foff, .tbslbrm, .rv, .qm, .e, .outOffset, .rxOffset, .harqBase].map s.readReg
      = [s.params.bg, s.params.z, s.params.c, s.params.f, s.params.foff, s.params.tbslbrm, s.params.rv, s.params.qm,
        s.params.e, s.params.outOffset, s.params.rxOffset, s.params.harqBase]
    ∧ s.readReg .sentinel = (0 : BitVec 24) ++ s.params.sentinel
    ∧ [Reg.k0raw, .k0, .ncb, .usable, .outlen].map s.readReg = [s.k0raw, s.k0, s.ncb, s.usable, s.outlen]
    ∧ s.readReg .status = s.statusWord
    ∧ s.readReg .ctrl = (if s.irqEn then 1 else 0))
  ∧ ∀ (s t : State) (a n : Nat), s.busy = false → hostRead s a n = .next t →
    t = { s with resp := t.resp } ∧ hostRead t a n = .next t

/-- R24: each of the twelve parameter registers stores all 32 bits whatever they are, at any time; every other register,
the memories and the command in flight are unchanged. -/
def Obligations.ParameterRegistersStoreAllBits : Prop :=
  ∀ r ∈ [Reg.bg, .z, .c, .f, .foff, .tbslbrm, .rv, .qm, .e, .outOffset, .rxOffset, .harqBase], ∀ (s : State) (v : Word),
    ∃ t, hostWrite s r.offset 4 v = .next t ∧ t.readReg r = v ∧ (∀ q : Reg, q ≠ r → t.readReg q = s.readReg q)
      ∧ t = { s with params := t.params, resp := .written }

/-- R23, R44: SENTINEL keeps bits 7:0 of a write and reads its RES0 bits as 0; nothing else changes. -/
def Obligations.SentinelKeepsLowByte : Prop :=
  ∀ (s : State) (v : Word), ∃ t, hostWrite s 0x050 4 v = .next t ∧ t.readReg .sentinel = v &&& 0xFF#32
    ∧ (∀ q : Reg, q ≠ .sentinel → t.readReg q = s.readReg q) ∧ t = { s with params := t.params, resp := .written }

/-- R22, R23, R46: the read-only registers ignore writes; ID is the constant and CAP_* are the parameters, at the defaults
of R8 the numbers shown. -/
def Obligations.ReadOnlyRegisters : Prop :=
  (∀ r ∈ [Reg.id, .errcode, .errcmd, .k0raw, .k0, .ncb, .usable, .outlen, .capZmax, .capEmax, .capGmax, .capHsize],
    ∀ (s : State) (v : Word), hostWrite s r.offset 4 v = .next { s with resp := .written })
  ∧ (∀ s : State, hostRead s 0x000 4 = .next { s with resp := .data 0x524D0001 }
    ∧ hostRead s 0x080 4 = .next { s with resp := .data (BitVec.ofNat 32 s.cfg.zMax) }
    ∧ hostRead s 0x084 4 = .next { s with resp := .data (BitVec.ofNat 32 s.cfg.eMax) }
    ∧ hostRead s 0x088 4 = .next { s with resp := .data (BitVec.ofNat 32 s.cfg.gMax) }
    ∧ hostRead s 0x08C 4 = .next { s with resp := .data (BitVec.ofNat 32 s.cfg.hSize) })
  ∧ [Reg.capZmax, .capEmax, .capGmax, .capHsize].map State.reset.readReg = [384, 65536, 1048576, 405504]

/-- R23, R26, R34: a write to STATUS clears exactly the bits DONE, ERR, OVR written as 1; BUSY, ERRCODE, ERRCMD and all
else stay; the RES0 bits read 0. -/
def Obligations.StatusWriteClearsOnes : Prop :=
  ∀ (s : State) (v : Word),
    hostWrite s 0x008 4 v = .next { s with
      done := s.done && !v.getLsbD 1, err := s.err && !v.getLsbD 2, ovr := s.ovr && !v.getLsbD 3, resp := .written }
    ∧ s.statusWord.getLsbD 0 = s.busy ∧ s.statusWord.getLsbD 1 = s.done ∧ s.statusWord.getLsbD 2 = s.err
    ∧ s.statusWord.getLsbD 3 = s.ovr ∧ ∀ k, 4 ≤ k → s.statusWord.getLsbD k = false

/-- R88: a command word written while BUSY is dropped with OVR and nothing else changes; otherwise, legal or not, it is
accepted: BUSY set, DONE cleared, the word and the current parameter registers taken. -/
def Obligations.CommandWordAcceptedOrDropped : Prop :=
  ∀ (s : State) (w : Word),
    (s.busy = true → hostWrite s 0x00C 4 w = .next { s with ovr := true, resp := .written })
    ∧ (s.busy = false → ∃ t, hostWrite s 0x00C 4 w = .next t
        ∧ t = { s with
            busy := true, done := false, cmd := w, snap := s.params, hazard := false, latency := t.latency,
            freeCtr := t.freeCtr, resp := .written })
    ∧ hostRead s 0x00C 4 = .next { s with resp := .data 0 }

/-- R28: a write to CTRL with bit 1 set is the soft reset whatever its other bits; with bit 1 clear it sets IRQ_EN
only. -/
def Obligations.CtrlWriteResetsOrEnables : Prop :=
  ∀ (s : State) (v : Word),
    (v.getLsbD 1 = true → hostWrite s 0x004 4 v = .next { s.softReset with resp := .written })
    ∧ (v.getLsbD 1 = false → hostWrite s 0x004 4 v = .next { s with irqEn := v.getLsbD 0, resp := .written })

/-- R232: the soft reset puts every register at its reset value and abandons the command in flight; memories keep their
contents, but every byte the command in flight writes is a free value afterwards. -/
def Obligations.SoftResetKeepsMemories : Prop :=
  ∀ s : State,
    (∀ r : Reg, s.softReset.readReg r = (State.initial s.cfg).readReg r)
    ∧ s.softReset.cfg = s.cfg ∧ s.softReset.busy = false ∧ s.softReset.irq = false ∧ s.softReset.inbox = s.inbox
    ∧ (s.busy = false → s.softReset.mem = s.mem)
    ∧ ∀ i, s.busy = true → decode s.cmd = .cmd i → Legal s.cfg i s.snap → ∀ a,
        s.softReset.mem.readByte a
          = if anyHas (writeRanges i s.snap) a then Config.freeByte s.freeCtr a else s.mem.readByte a

/-- R230, R231: the hardware reset puts every register at its reset value, abandons the command in flight without DONE
or ERR, lowers IRQ, and leaves every byte of the memories a free value that stays the same until written. How the free
value is drawn, and the reset as an input, are the model's, log 1 and 12. -/
def Obligations.HardwareResetFreesMemories : Prop :=
  ∀ s : State, ∃ t, input s .hwReset = .next t
    ∧ (∀ r : Reg, t.readReg r = (State.initial s.cfg).readReg r) ∧ t.cfg = s.cfg ∧ t.busy = false ∧ t.irq = false
    ∧ t.inbox = s.inbox
    ∧ t.mem.wf ∧ ∀ a, t.mem.readByte a = Config.freeByte s.freeCtr a

/-- R205, R206: IRQ is IRQ_EN and (DONE or ERR); writing 1 to DONE and, where it is set, to ERR, or clearing IRQ_EN, lowers
IRQ; accepting a command lowers it unless ERR is 1; OVR does not drive it. -/
def Obligations.InterruptClearing : Prop :=
  ∀ s : State, s.irq = (s.irqEn && (s.done || s.err))
    ∧ (∀ v : Word, v.getLsbD 1 = true → (s.err = true → v.getLsbD 2 = true) →
      ∃ t, hostWrite s 0x008 4 v = .next t ∧ t.irq = false)
    ∧ (∀ v : Word, v.getLsbD 0 = false → ∃ t, hostWrite s 0x004 4 v = .next t ∧ t.irq = false)
    ∧ (∀ w : Word, s.busy = false → ∃ t, hostWrite s 0x00C 4 w = .next t ∧ t.irq = (s.irqEn && s.err))
    ∧ ∀ b, ({ s with ovr := b } : State).irq = s.irq

/-- R233: every register after either reset, whatever the state before it; the interrupt is masked and no command is in
flight. -/
def Obligations.ResetRegisterValues : Prop :=
  (∀ t : State, t = State.reset ∨ (∃ s : State, t = s.softReset ∨ t = s.hardwareReset) →
    (∀ r ∈ [Reg.ctrl, .status, .cmd, .errcode, .errcmd, .bg, .z, .c, .f, .foff, .tbslbrm, .rv, .qm, .e, .outOffset,
      .rxOffset, .harqBase, .k0raw, .k0, .ncb, .usable, .outlen], t.readReg r = 0)
    ∧ t.readReg .sentinel = t.cfg.sentinelReset.setWidth 32 ∧ t.readReg .id = 0x524D0001
    ∧ t.readReg .capZmax = BitVec.ofNat 32 t.cfg.zMax ∧ t.readReg .capEmax = BitVec.ofNat 32 t.cfg.eMax
    ∧ t.readReg .capGmax = BitVec.ofNat 32 t.cfg.gMax ∧ t.readReg .capHsize = BitVec.ofNat 32 t.cfg.hSize
    ∧ t.irqEn = false ∧ t.irq = false ∧ t.busy = false)
  ∧ State.reset.readReg .sentinel = 0x02

/-! ### The host and a command in flight -/

/-- R45, R47, R246: a host step while a command is in flight leaves the command, its snapshot and the result registers,
and brings the completion one host step nearer, unless it is a hardware or a soft reset, after which no command is in
flight. The countdown and the list of accesses are the model's, log 3 and 4. -/
def Obligations.HostStepsLeaveCommand : Prop :=
  ∀ (s t : State) (x : Input) (rest : List Input), s.busy = true → s.latency ≠ 0 → s.inbox = x :: rest →
    step s = .next t →
    (t.busy = true ∧ t.cmd = s.cmd ∧ t.snap = s.snap ∧ t.latency = s.latency - 1 ∧ t.k0raw = s.k0raw ∧ t.k0 = s.k0
      ∧ t.ncb = s.ncb ∧ t.usable = s.usable ∧ t.outlen = s.outlen)
    ∨ (t.busy = false ∧ (x = .hwReset ∨ ∃ v : Word, x = .write 0x004 4 v ∧ v.getLsbD 1 = true))

/-- R76, R240 (U3, U4): while an accepted command is in flight, a window access that touches a range it reads or writes
is recorded, and no other access is; a read returns free values for the bytes in such a range and the stored bytes for
the others; a write stores free values for the bytes in such a range and the others as written. The flag and the choice
of the free values are the model's, log 6 and 8. -/
def Obligations.HazardRecorded : Prop :=
  ∀ (s : State) (i : Instr) (m : MemId) (a n : Nat) (v : Word), s.cfg.Valid → s.busy = true → decode s.cmd = .cmd i →
    Legal s.cfg i s.snap → (n = 1 ∨ n = 2 ∨ n = 4) → a % n = 0 → m.start ≤ a → a + n ≤ m.start + m.bytes s.cfg →
    let ranges := readRanges i s.snap ++ writeRanges i s.snap
    let touched := ∃ k < n, anyHas ranges (a + k) = true
    ∃ t u, hostRead s a n = .next t ∧ hostWrite s a n v = .next u
      ∧ (t.hazard = true ↔ s.hazard = true ∨ touched) ∧ (u.hazard = true ↔ s.hazard = true ∨ touched)
      ∧ (¬touched → t.freeCtr = s.freeCtr ∧ u.freeCtr = s.freeCtr)
      ∧ (touched → t.freeCtr = s.freeCtr + 1 ∧ u.freeCtr = s.freeCtr + 1)
      ∧ t = { s with hazard := t.hazard, freeCtr := t.freeCtr, resp := t.resp }
      ∧ t.resp = .data (ofBytes ((List.range n).map fun k =>
          if anyHas ranges (a + k) then Config.freeByte s.freeCtr (a + k) else s.mem.readByte (a + k)))
      ∧ u = { s with hazard := u.hazard, freeCtr := u.freeCtr, mem := u.mem, resp := .written }
      ∧ ∀ b, u.mem.readByte b
          = if a ≤ b ∧ b < a + n then
              if anyHas ranges b then Config.freeByte s.freeCtr b else v.extractLsb' (8 * (b - a)) 8
            else s.mem.readByte b

/-- R97, R251: the WAIT loop ends: with nothing but WAIT to do, a command in flight, legal or not, completes after its
latency, and the poll that then reads BUSY = 0 leaves the loop. The countdown and the WAIT input are the model's, log 3
and 4. -/
def Obligations.WaitLoopEnds : Prop :=
  ∀ s : State, s.busy = true → s.inbox = [.wait] → ∃ t u, Sys2Proof.core.run (s.latency + 1) s = .next t
    ∧ t.busy = false ∧ t.done = true
    ∧ step t = .next u ∧ u.inbox = [] ∧ u.resp = .data u.statusWord ∧ u.statusWord.getLsbD 0 = false

/-! ### Whole-machine rules -/

/-- R29: BUSY becomes 1 only when the host writes a command word, and then the machine holds that word and the
parameter registers as of that write. -/
def Obligations.BusyOnlyByAcceptance : Prop :=
  ∀ s t : State, step s = .next t → s.busy = false → t.busy = true →
    ∃ w rest, s.inbox = .write 0x00C 4 w :: rest ∧ t.cmd = w ∧ t.snap = s.params ∧ t.done = false

/-- R34, R183: once an error is recorded, only CLRERR's completion, a soft reset or a hardware reset makes ERRCODE 0
again. -/
def Obligations.ErrorRecordClearedOnlyBy : Prop :=
  ∀ s t : State, step s = .next t → s.errcode ≠ 0 → t.errcode = 0 →
    (s.busy = true ∧ decode s.cmd = .cmd .clrerr ∧ exec .clrerr s = .next t)
    ∨ ∃ rest, s.inbox = .hwReset :: rest ∨ ∃ v : Word, s.inbox = .write 0x004 4 v :: rest ∧ v.getLsbD 1 = true

/-- R60, R66, R75, R200, R231, R232: a byte of memory changes in a step only by an accepted command that has it in its
write ranges, by a host write that covers it, by a soft reset that aborts such a command, or by a hardware reset. That a
command which will be rejected has no write ranges, so that a soft reset then changes no byte, is the model's deduction,
log 18. -/
def Obligations.MemoryChangesOnlyBy : Prop :=
  ∀ (s t : State) (a : Nat), step s = .next t → t.mem.readByte a ≠ s.mem.readByte a →
    (s.busy = true ∧ ∃ i, decode s.cmd = .cmd i ∧ Legal s.cfg i s.snap ∧ anyHas (writeRanges i s.snap) a = true
      ∧ (exec i s = .next t ∨ ∃ v rest, s.inbox = .write 0x004 4 v :: rest ∧ v.getLsbD 1 = true))
    ∨ (∃ b n v rest, s.inbox = .write b n v :: rest ∧ b ≤ a ∧ a < b + n
        ∧ ∃ m : MemId, m.start ≤ b ∧ b + n ≤ m.start + m.bytes s.cfg)
    ∨ ∃ rest, s.inbox = .hwReset :: rest

/-- The invariant holds after reset (R52, R233). -/
def Obligations.ResetMeetsInvariant : Prop := Inv State.reset

/-- Every step keeps the invariant, and the parameters of R8 as they are: the parameters meet their constraints, the
memory is in its canonical form, nothing is written outside the six memories, BUSY excludes DONE, the hazard belongs to a
command in flight, ERRCODE is a code that the recorded word can be rejected with (so never the reserved 0x0401), the
result registers hold what the selector gives for some legal parameters, within its bounds, and OUTLEN is bounded (R9,
R29, R30, R34, R45, R66, R109, R114, R191, R195). -/
def Obligations.StepKeepsInvariant : Prop :=
  ∀ s t : State, Inv s → step s = .next t → Inv t ∧ t.cfg = s.cfg
end

