-- ==== Sys2Proof/Laws/Memory.lean ====
section
/-! SUPPORT. What each memory operation of Machine/Ops.lean and Machine/Operands.lean does: the byte read after it, the
elements read after it, and that it keeps the canonical form. -/

namespace Sys2Proof.Machine

/-! ### The cell list -/

theorem cellsGet_cellsPut (l : List Host.Cell) (a b : Nat) (v : Byte) :
    cellsGet (cellsPut l a v) b = if b = a then some v else cellsGet l b := by
  induction l with
  | nil => simp [cellsPut, cellsGet]
  | cons c rest ih =>
    obtain ⟨k, w⟩ := c
    simp only [cellsPut]
    split
    · simp [cellsGet]
    · split
      · subst_vars
        simp only [cellsGet]
        split <;> simp_all
      · simp only [cellsGet, ih]
        split <;> split <;> simp_all

theorem mem_cellsPut {l : List Host.Cell} {a : Nat} {v : Byte} {c : Host.Cell} (h : c ∈ cellsPut l a v) :
    c.1 = a ∨ c ∈ l := by
  induction l with
  | nil => simp [cellsPut] at h; simp [h]
  | cons d rest ih =>
    obtain ⟨k, w⟩ := d
    simp only [cellsPut] at h
    split at h
    · simp only [List.mem_cons] at h ⊢
      rcases h with h | h | h <;> simp [h]
    · split at h
      · simp only [List.mem_cons] at h ⊢
        rcases h with h | h <;> simp [h]
      · simp only [List.mem_cons] at h ⊢
        rcases h with h | h
        · simp [h]
        · rcases ih h with h | h <;> simp [h]

theorem cellsPut_pairwise {l : List Host.Cell} (a : Nat) (v : Byte) (h : l.Pairwise fun x y => x.1 < y.1) :
    (cellsPut l a v).Pairwise fun x y => x.1 < y.1 := by
  induction l with
  | nil => simp [cellsPut]
  | cons d rest ih =>
    obtain ⟨k, w⟩ := d
    rw [List.pairwise_cons] at h
    simp only [cellsPut]
    split
    · rename_i hlt
      refine List.pairwise_cons.2 ⟨fun c hc => ?_, List.pairwise_cons.2 h⟩
      rcases List.mem_cons.1 hc with rfl | hc
      · exact hlt
      · exact Nat.lt_trans hlt (h.1 c hc)
    · split
      · rename_i heq
        subst heq
        exact List.pairwise_cons.2 ⟨h.1, h.2⟩
      · refine List.pairwise_cons.2 ⟨fun c hc => ?_, ih h.2⟩
        rcases mem_cellsPut hc with hc | hc
        · omega
        · exact h.1 c hc

/-! ### Bytes -/

@[simp] theorem Memory.writeByte_epoch (m : Memory) (a : Nat) (v : Byte) : (m.writeByte a v).epoch = m.epoch := rfl

theorem Memory.readByte_writeByte (m : Memory) (a b : Nat) (v : Byte) :
    (m.writeByte a v).readByte b = if b = a then v else m.readByte b := by
  simp only [Memory.readByte, Memory.writeByte, cellsGet_cellsPut]
  split <;> rfl

@[simp] theorem Memory.readByte_writeByte_same (m : Memory) (a : Nat) (v : Byte) :
    (m.writeByte a v).readByte a = v := by
  simp [Memory.readByte_writeByte]

@[simp] theorem Memory.writeBytes_epoch (m : Memory) (a : Nat) (vs : List Byte) :
    (m.writeBytes a vs).epoch = m.epoch := by
  induction vs generalizing m a with
  | nil => rfl
  | cons v rest ih => simp [Memory.writeBytes, ih]

/-- What a byte reads as after bytes are stored from `a` on. -/
theorem Memory.readByte_writeBytes (m : Memory) (a b : Nat) (vs : List Byte) :
    (m.writeBytes a vs).readByte b
      = if a ≤ b ∧ b < a + vs.length then vs.getD (b - a) 0 else m.readByte b := by
  induction vs generalizing m a with
  | nil =>
    simp only [Memory.writeBytes, List.length_nil]
    rw [if_neg (by omega)]
  | cons v rest ih =>
    simp only [Memory.writeBytes, ih, List.length_cons, Memory.readByte_writeByte]
    by_cases h1 : a + 1 ≤ b ∧ b < a + 1 + rest.length
    · rw [if_pos h1, if_pos (by omega), show b - a = (b - (a + 1)) + 1 by omega]
      simp
    · rw [if_neg h1]
      by_cases h2 : b = a
      · subst h2
        rw [if_pos rfl, if_pos (by omega)]
        simp
      · rw [if_neg h2, if_neg (by omega)]

theorem Memory.readByte_writeBytes_outside (m : Memory) (a b : Nat) (vs : List Byte)
    (h : b < a ∨ a + vs.length ≤ b) : (m.writeBytes a vs).readByte b = m.readByte b := by
  rw [Memory.readByte_writeBytes, if_neg (by omega)]

theorem Memory.writeBytes_append (m : Memory) (a : Nat) (xs ys : List Byte) :
    m.writeBytes a (xs ++ ys) = (m.writeBytes a xs).writeBytes (a + xs.length) ys := by
  induction xs generalizing m a with
  | nil => rfl
  | cons v rest ih =>
    simp only [List.cons_append, Memory.writeBytes, ih, List.length_cons]
    congr 1
    omega

/-! ### Half words -/

/-- The two byte lanes of a 16-bit element put together again. -/
theorem half_of_bytes (v : Half) : (v.extractLsb' 8 8 : Byte) ++ (v.extractLsb' 0 8 : Byte) = v := by
  have h := BitVec.extractLsb'_append_extractLsb'_eq_extractLsb' (x := v) (start₁ := 0) (start₂ := 8) (len₁ := 8)
    (len₂ := 8) rfl
  rw [h]
  ext i hi
  simp

theorem Memory.writeHalf_eq (m : Memory) (a : Nat) (v : Half) :
    m.writeHalf a v = (m.writeByte a (v.extractLsb' 0 8)).writeByte (a + 1) (v.extractLsb' 8 8) := rfl

@[simp] theorem Memory.writeHalf_epoch (m : Memory) (a : Nat) (v : Half) : (m.writeHalf a v).epoch = m.epoch := rfl

@[simp] theorem Memory.readHalf_writeHalf_same (m : Memory) (a : Nat) (v : Half) :
    (m.writeHalf a v).readHalf a = v := by
  simp [Memory.readHalf, Memory.writeHalf_eq, Memory.readByte_writeByte, half_of_bytes]

theorem Memory.readByte_writeHalf_outside (m : Memory) (a b : Nat) (v : Half) (h : b < a ∨ a + 2 ≤ b) :
    (m.writeHalf a v).readByte b = m.readByte b := by
  rw [Memory.writeHalf_eq, Memory.readByte_writeByte, if_neg (by omega), Memory.readByte_writeByte,
    if_neg (by omega)]

theorem Memory.readHalf_writeHalf_outside (m : Memory) (a b : Nat) (v : Half) (h : b + 1 < a ∨ a + 2 ≤ b) :
    (m.writeHalf a v).readHalf b = m.readHalf b := by
  simp only [Memory.readHalf]
  rw [Memory.readByte_writeHalf_outside _ _ _ _ (by omega), Memory.readByte_writeHalf_outside _ _ _ _ (by omega)]

@[simp] theorem Memory.writeHalves_epoch (m : Memory) (a : Nat) (vs : List Half) :
    (m.writeHalves a vs).epoch = m.epoch := by
  induction vs generalizing m a with
  | nil => rfl
  | cons v rest ih => simp [Memory.writeHalves, ih]

theorem Memory.readByte_writeHalves_outside (m : Memory) (a b : Nat) (vs : List Half)
    (h : b < a ∨ a + 2 * vs.length ≤ b) : (m.writeHalves a vs).readByte b = m.readByte b := by
  induction vs generalizing m a with
  | nil => rfl
  | cons v rest ih =>
    simp only [List.length_cons] at h
    rw [Memory.writeHalves, ih _ _ (by omega), Memory.readByte_writeHalf_outside _ _ _ _ (by omega)]

theorem Memory.readHalf_writeHalves_outside (m : Memory) (a b : Nat) (vs : List Half)
    (h : b + 1 < a ∨ a + 2 * vs.length ≤ b) : (m.writeHalves a vs).readHalf b = m.readHalf b := by
  simp only [Memory.readHalf]
  rw [Memory.readByte_writeHalves_outside _ _ _ _ (by omega), Memory.readByte_writeHalves_outside _ _ _ _ (by omega)]

/-- Element `i` of the 16-bit elements stored from `a` on. -/
theorem Memory.readHalf_writeHalves (m : Memory) (a i : Nat) (vs : List Half) (h : i < vs.length) :
    (m.writeHalves a vs).readHalf (a + 2 * i) = vs.getD i 0 := by
  induction vs generalizing m a i with
  | nil => simp at h
  | cons v rest ih =>
    rw [Memory.writeHalves]
    cases i with
    | zero =>
      rw [Nat.mul_zero, Nat.add_zero, Memory.readHalf_writeHalves_outside _ _ _ _ (by omega)]
      simp
    | succ k =>
      rw [show a + 2 * (k + 1) = a + 2 + 2 * k by omega, ih _ _ _ (by simpa using h)]
      simp

/-! ### Elements -/

/-- The mapped part of each memory stays inside its part of the window (R9, R70). -/
theorem MemId.bytes_le {c : Config} (hc : c.Valid) (x : MemId) :
    x.bytes c ≤ (match x with | .dmem | .emem | .omem => 0x100000 | .lmem | .rmem => 0x200000 | .hmem => 0x800000) := by
  have h1 := hc.dSize_le
  have h2 := hc.eMax_le
  have h3 := hc.gMax_le
  have h4 := hc.two_hSize_le
  cases x <;> simp only [MemId.bytes, MemId.esz, MemId.elems] <;> omega

/-- Two different memories lie apart in the window (R9, R70). -/
theorem MemId.apart {c : Config} (hc : c.Valid) {x y : MemId} (h : x ≠ y) :
    x.start + x.bytes c ≤ y.start ∨ y.start + y.bytes c ≤ x.start := by
  have hx := MemId.bytes_le hc x
  have hy := MemId.bytes_le hc y
  revert h hx hy
  cases x <;> cases y <;> simp only [MemId.start, ne_eq, reduceCtorEq, not_true_eq_false, not_false_eq_true, false_implies,
    true_implies] <;> omega

theorem Memory.bit_putBits_same (m : Memory) (x : MemId) (i k : Nat) (vs : List Byte) (hx : x.esz = 1)
    (h : k < vs.length) : (m.putBits x i vs).bit x (i + k) = vs.getD k 0 := by
  simp only [Memory.putBits, Memory.bit, MemId.addr, hx, Nat.one_mul]
  rw [Memory.readByte_writeBytes, if_pos (by omega)]
  congr 1
  omega

theorem Memory.half_putHalves_same (m : Memory) (x : MemId) (i k : Nat) (vs : List Half) (hx : x.esz = 2)
    (h : k < vs.length) : (m.putHalves x i vs).half x (i + k) = vs.getD k 0 := by
  simp only [Memory.putHalves, Memory.half, MemId.addr, hx, Nat.mul_add, ← Nat.add_assoc]
  exact Memory.readHalf_writeHalves _ _ _ _ h

/-- A byte outside the elements stored into a byte-element memory is unchanged. -/
theorem Memory.readByte_putBits_outside (m : Memory) (x : MemId) (i b : Nat) (vs : List Byte) (hx : x.esz = 1)
    (h : (x.range i vs.length).has b = false) : (m.putBits x i vs).readByte b = m.readByte b := by
  simp only [Range.has, MemId.range, hx, Nat.one_mul, decide_eq_false_iff_not, not_and, Nat.not_lt] at h
  rw [Memory.putBits, Memory.readByte_writeBytes_outside]
  omega

/-- A byte outside the elements stored into a 16-bit memory is unchanged. -/
theorem Memory.readByte_putHalves_outside (m : Memory) (x : MemId) (i b : Nat) (vs : List Half) (hx : x.esz = 2)
    (h : (x.range i vs.length).has b = false) : (m.putHalves x i vs).readByte b = m.readByte b := by
  simp only [Range.has, MemId.range, hx, decide_eq_false_iff_not, not_and, Nat.not_lt] at h
  rw [Memory.putHalves, Memory.readByte_writeHalves_outside]
  omega

/-! ### Free values -/

theorem Range.has_iff (r : Range) (a : Nat) : r.has a = true ↔ r.start ≤ a ∧ a < r.start + r.len := by
  simp [Range.has]

theorem Memory.readByte_scrambleRange (m : Memory) (e : Nat) (r : Range) (b : Nat) :
    (m.scrambleRange e r).readByte b = if r.has b then Config.freeByte e b else m.readByte b := by
  rw [Memory.scrambleRange, Memory.readByte_writeBytes]
  by_cases h : r.start ≤ b ∧ b < r.start + r.len
  · rw [if_pos (by simpa using h), if_pos (by simpa [Range.has] using h)]
    have hk : b - r.start < r.len := by omega
    simp [hk]
    congr 1
    omega
  · rw [if_neg (by simpa using h), if_neg (by simpa [Range.has] using h)]

/-- A byte in one of the ranges is free after `scramble`, every other byte is unchanged. -/
theorem Memory.readByte_scramble (m : Memory) (e : Nat) (rs : List Range) (b : Nat) :
    (m.scramble e rs).readByte b = if anyHas rs b then Config.freeByte e b else m.readByte b := by
  induction rs generalizing m with
  | nil => simp [Memory.scramble, anyHas]
  | cons r rest ih =>
    rw [Memory.scramble, ih, Memory.readByte_scrambleRange]
    simp only [anyHas, List.any_cons, Bool.or_eq_true]
    by_cases h1 : r.has b = true <;> by_cases h2 : (rest.any fun r => r.has b) = true <;> simp [h1, h2]

/-! ### The canonical form -/

theorem Memory.writeByte_wf {m : Memory} (a : Nat) (v : Byte) (h : m.wf) : (m.writeByte a v).wf :=
  cellsPut_pairwise a v h

theorem Memory.writeBytes_wf {m : Memory} (a : Nat) (vs : List Byte) (h : m.wf) : (m.writeBytes a vs).wf := by
  induction vs generalizing m a with
  | nil => exact h
  | cons v rest ih => exact ih _ (Memory.writeByte_wf _ _ h)

theorem Memory.writeHalf_wf {m : Memory} (a : Nat) (v : Half) (h : m.wf) : (m.writeHalf a v).wf :=
  Memory.writeBytes_wf _ _ h

theorem Memory.writeHalves_wf {m : Memory} (a : Nat) (vs : List Half) (h : m.wf) : (m.writeHalves a vs).wf := by
  induction vs generalizing m a with
  | nil => exact h
  | cons v rest ih => exact ih _ (Memory.writeHalf_wf _ _ h)

theorem Memory.putBits_wf {m : Memory} (x : MemId) (i : Nat) (vs : List Byte) (h : m.wf) : (m.putBits x i vs).wf :=
  Memory.writeBytes_wf _ _ h

theorem Memory.putHalves_wf {m : Memory} (x : MemId) (i : Nat) (vs : List Half) (h : m.wf) :
    (m.putHalves x i vs).wf :=
  Memory.writeHalves_wf _ _ h

theorem Memory.scrambleRange_wf {m : Memory} (e : Nat) (r : Range) (h : m.wf) : (m.scrambleRange e r).wf :=
  Memory.writeBytes_wf _ _ h

theorem Memory.scramble_wf {m : Memory} (e : Nat) (rs : List Range) (h : m.wf) : (m.scramble e rs).wf := by
  induction rs generalizing m with
  | nil => exact h
  | cons r rest ih => exact ih (Memory.scrambleRange_wf _ _ h)

theorem Memory.fresh_wf (e : Nat) : (Memory.fresh e).wf := List.Pairwise.nil

/-! ### Where listed bytes lie -/

/-- Storing bytes lists no offset but theirs. -/
theorem Memory.mem_cells_writeBytes {m : Memory} {a : Nat} {vs : List Byte} {c : Host.Cell}
    (h : c ∈ (m.writeBytes a vs).cells) : (a ≤ c.1 ∧ c.1 < a + vs.length) ∨ c ∈ m.cells := by
  induction vs generalizing m a with
  | nil => exact .inr h
  | cons v rest ih =>
    rcases ih h with h | h
    · left; simp only [List.length_cons]; omega
    · rcases mem_cellsPut h with h | h
      · left; simp only [List.length_cons]; omega
      · exact .inr h

theorem Memory.mem_cells_writeHalf {m : Memory} {a : Nat} {v : Half} {c : Host.Cell}
    (h : c ∈ (m.writeHalf a v).cells) : (a ≤ c.1 ∧ c.1 < a + 2) ∨ c ∈ m.cells :=
  Memory.mem_cells_writeBytes h

theorem Memory.mem_cells_writeHalves {m : Memory} {a : Nat} {vs : List Half} {c : Host.Cell}
    (h : c ∈ (m.writeHalves a vs).cells) : (a ≤ c.1 ∧ c.1 < a + 2 * vs.length) ∨ c ∈ m.cells := by
  induction vs generalizing m a with
  | nil => exact .inr h
  | cons v rest ih =>
    rcases ih h with h | h
    · left; simp only [List.length_cons]; omega
    · rcases Memory.mem_cells_writeHalf h with h | h
      · left; simp only [List.length_cons]; omega
      · exact .inr h

/-- Scrambling lists no offset outside the ranges. -/
theorem Memory.mem_cells_scramble {m : Memory} {e : Nat} {rs : List Range} {c : Host.Cell}
    (h : c ∈ (m.scramble e rs).cells) : anyHas rs c.1 = true ∨ c ∈ m.cells := by
  induction rs generalizing m with
  | nil => exact .inr h
  | cons r rest ih =>
    rcases ih h with h | h
    · left; simp only [anyHas, List.any_cons, Bool.or_eq_true]; exact .inr h
    · rcases Memory.mem_cells_writeBytes h with h | h
      · left
        simp only [anyHas, List.any_cons, Bool.or_eq_true]
        exact .inl ((Range.has_iff _ _).2 (by simpa using h))
      · exact .inr h

/-- An offset inside the mapped part of a memory is mapped (R70). -/
theorem MemId.ofAddr_isSome {c : Config} {x : MemId} {a : Nat} (h : x.start ≤ a ∧ a < x.start + x.bytes c) :
    (MemId.ofAddr c a).isSome := by
  rw [MemId.ofAddr, List.find?_isSome]
  exact ⟨x, by cases x <;> simp [MemId.all], by simpa using h⟩

end Sys2Proof.Machine
end

