-- ==== Sys2Proof/Laws/Selector.lean ====
section
/-! SUPPORT. What the selector (Machine/Selector.lean) and the validation (Machine/Validate.lean) can answer. -/

namespace Sys2Proof.Machine

/-! ### The index sequence -/

theorem inFiller_eq_true (p : Params) (i : Nat) :
    inFiller p i = true ↔ p.foffN ≤ i ∧ i < p.foffN + p.fN := by
  simp [inFiller]

theorem inFiller_eq_false (p : Params) (i : Nat) :
    inFiller p i = false ↔ ¬(p.foffN ≤ i ∧ i < p.foffN + p.fN) := by
  simp only [inFiller, decide_eq_false_iff_not]

/-- The start index is inside the circular buffer (R112). -/
theorem selK0_lt {c : Config} {p : Params} (h : 1 ≤ selNcb p) : selK0 c p < selNcb p := by
  unfold selK0
  split <;> omega

theorem selK0_le (c : Config) (p : Params) : selK0 c p ≤ selNcb p := by
  unfold selK0
  split <;> omega

/-- One pass visits exactly the usable indices of `[0, Ncb)` (R113). -/
theorem mem_selOnePass (c : Config) (p : Params) (i : Nat) :
    i ∈ selOnePass c p ↔ i < selNcb p ∧ inFiller p i = false := by
  have := selK0_le c p
  simp only [selOnePass, List.mem_filter, List.mem_append, List.mem_range', List.mem_range, Bool.not_eq_true']
  constructor
  · rintro ⟨⟨k, hk, rfl⟩ | hk, hf⟩
    · exact ⟨by omega, hf⟩
    · exact ⟨by omega, hf⟩
  · rintro ⟨h, hf⟩
    refine ⟨?_, hf⟩
    by_cases hi : i < selK0 c p
    · exact .inr hi
    · exact .inl ⟨i - selK0 c p, by omega, by omega⟩

theorem selOnePass_nodup (c : Config) (p : Params) : (selOnePass c p).Nodup := by
  refine List.Nodup.filter _ (List.nodup_append.2 ⟨List.nodup_range', List.nodup_range, ?_⟩)
  intro a ha b hb
  rw [List.mem_range'] at ha
  rw [List.mem_range] at hb
  obtain ⟨k, _, rfl⟩ := ha
  omega

/-- How many of the first `n` indices are outside `[lo, hi)`. -/
theorem length_filter_outside (lo hi n : Nat) (h : lo ≤ hi) :
    ((List.range n).filter fun i => !decide (lo ≤ i ∧ i < hi)).length = n - (min hi n - min lo n) := by
  induction n with
  | zero => simp
  | succ n ih =>
    rw [List.range_succ, List.filter_append, List.length_append, ih]
    by_cases hn : lo ≤ n ∧ n < hi
    · simp [hn]
      omega
    · have hd : decide (lo ≤ n ∧ n < hi) = false := by simpa using hn
      rw [List.filter_singleton, hd]
      simp
      omega

/-- `len(L) = U` (R113). -/
theorem selOnePass_length {c : Config} {p : Params} (h : p.foffN ≤ selNcb p) : (selOnePass c p).length = selU p := by
  have hp : (List.range' (selK0 c p) (selNcb p - selK0 c p) ++ List.range (selK0 c p)).Perm (List.range (selNcb p)) := by
    refine List.perm_append_comm.trans ?_
    have happ := List.range'_append_1 (s := 0) (m := selK0 c p) (n := selNcb p - selK0 c p)
    rw [Nat.zero_add, Nat.add_sub_cancel' (selK0_le c p)] at happ
    rw [List.range_eq_range', List.range_eq_range', happ]
  rw [selOnePass, (hp.filter _).length_eq]
  simp only [inFiller]
  rw [length_filter_outside _ _ _ (Nat.le_add_right _ _), selU]
  omega

@[simp] theorem selPrefix_length (c : Config) (p : Params) (n : Nat) : (selPrefix c p n).length = n := by
  simp [selPrefix]

theorem selPrefix_getD {c : Config} {p : Params} {n j : Nat} (h : j < n) : (selPrefix c p n).getD j 0 = sel c p j := by
  simp [selPrefix, sel, h]

theorem selPrefix_eq_map (c : Config) (p : Params) (n : Nat) : selPrefix c p n = (List.range n).map (sel c p) := rfl

/-- A selected index is a usable one, as long as there is one (R114 a, b). -/
theorem sel_mem {c : Config} {p : Params} (h : 1 ≤ (selOnePass c p).length) (j : Nat) : sel c p j ∈ selOnePass c p := by
  have hj : j % (selOnePass c p).length < (selOnePass c p).length := Nat.mod_lt _ h
  rw [sel, List.getD_eq_getElem _ _ hj]
  exact List.getElem_mem hj

theorem sel_lt {c : Config} {p : Params} (h : 1 ≤ selNcb p) (j : Nat) : sel c p j < selNcb p := by
  by_cases hl : 1 ≤ (selOnePass c p).length
  · exact ((mem_selOnePass c p _).1 (sel_mem hl j)).1
  · have h0 : selOnePass c p = [] := List.length_eq_zero_iff.1 (by omega)
    simp only [sel, h0, List.getD_nil]
    omega

/-! ### Sizes -/

theorem selNcb_le_selN (p : Params) : selNcb p ≤ selN p := by
  unfold selNcb
  split
  · exact Nat.le_refl _
  · exact Nat.min_le_left _ _

theorem selN_le_dSize {c : Config} (hc : c.Valid) {p : Params} (h : p.zN ≤ c.zMax) : selN p ≤ c.dSize := by
  have := hc.dSize_eq
  unfold selN
  split <;> omega

theorem selU_le_selNcb (p : Params) : selU p ≤ selNcb p := Nat.sub_le _ _

/-- A K0TAB entry, or the 0 outside the table, is below N / Z (R9, R107, R109). -/
theorem k0Tab_lt {c : Config} (hc : c.Valid) (bg rv : Nat) : c.k0Tab bg rv < if bg = 1 then 66 else 50 := by
  have key : ∀ (l : List Nat) (n : Nat), 0 < n → (∀ k ∈ l, k < n) → l.getD rv 0 < n := by
    intro l n hn hl
    by_cases h : rv < l.length
    · rw [List.getD_eq_getElem _ _ h]
      exact hl _ (List.getElem_mem h)
    · rw [List.getD_eq_default _ _ (by omega)]
      exact hn
  unfold Config.k0Tab
  split
  · exact key _ _ (by omega) hc.k0tab1_lt
  · split
    · exact key _ _ (by omega) hc.k0tab2_lt
    · simp

/-! ### What each check tests (R196) -/

variable (c : Config) (p : Params)

@[simp] theorem Check.bg_passes : Check.fails c p .bg = false ↔ p.bgN = 1 ∨ p.bgN = 2 := by
  simp only [Check.fails, Bool.not_eq_false', Bool.or_eq_true, beq_iff_eq]

@[simp] theorem Check.z_passes : Check.fails c p .z = false ↔ 1 ≤ p.zN ∧ p.zN ≤ c.zMax := by
  simp only [Check.fails, Bool.or_eq_false_iff, beq_eq_false_iff_ne, decide_eq_false_iff_not]
  omega

@[simp] theorem Check.rv_passes : Check.fails c p .rv = false ↔ p.rvN ≤ 3 := by
  simp only [Check.fails, decide_eq_false_iff_not]
  omega

@[simp] theorem Check.c_passes : Check.fails c p .c = false ↔ 1 ≤ p.cN := by
  simp only [Check.fails, beq_eq_false_iff_ne]
  omega

@[simp] theorem Check.qm_passes :
    Check.fails c p .qm = false ↔ p.qmN = 2 ∨ p.qmN = 4 ∨ p.qmN = 6 ∨ p.qmN = 8 := by
  simp only [Check.fails, Bool.not_eq_false', Bool.or_eq_true, beq_iff_eq]
  omega

@[simp] theorem Check.ez_passes : Check.fails c p .ez = false ↔ 1 ≤ p.eN := by
  simp only [Check.fails, beq_eq_false_iff_ne]
  omega

@[simp] theorem Check.eq_passes : Check.fails c p .eq = false ↔ p.eN % p.qmN = 0 := by
  simp only [Check.fails, bne_eq_false_iff_eq]

@[simp] theorem Check.fe_passes : Check.fails c p .fe = false ↔ p.foffN ≤ p.eN := by
  simp only [Check.fails, decide_eq_false_iff_not]
  omega

@[simp] theorem Check.fn_passes : Check.fails c p .fn = false ↔ p.foffN ≤ selNcb p := by
  simp only [Check.fails, decide_eq_false_iff_not]
  omega

@[simp] theorem Check.buf_passes (bs : List Bound) :
    Check.fails c p (.buf bs) = false ↔ ∀ b ∈ bs, Bound.fails c p b = false := by
  simp only [Check.fails, List.any_eq_false, Bool.not_eq_true]

@[simp] theorem Check.nu_passes : Check.fails c p .nu = false ↔ 1 ≤ selU p := by
  simp only [Check.fails, beq_eq_false_iff_ne]
  omega

@[simp] theorem Check.sn_passes : Check.fails c p .sn = false ↔ 2 ≤ p.sentN := by
  simp only [Check.fails, Bool.or_eq_false_iff, beq_eq_false_iff_ne]
  omega

@[simp] theorem Check.fr_passes : Check.fails c p .fr = false ↔ p.foffN + p.fN ≤ selN p := by
  simp only [Check.fails, decide_eq_false_iff_not]
  omega

@[simp] theorem Bound.e_passes : Bound.fails c p .e = false ↔ p.eN ≤ c.eMax := by
  simp only [Bound.fails, decide_eq_false_iff_not]
  omega

@[simp] theorem Bound.out_passes : Bound.fails c p .out = false ↔ p.outN + p.eN ≤ c.gMax := by
  simp only [Bound.fails, decide_eq_false_iff_not]
  omega

@[simp] theorem Bound.rx_passes : Bound.fails c p .rx = false ↔ p.rxN + p.eN ≤ c.gMax := by
  simp only [Bound.fails, decide_eq_false_iff_not]
  omega

@[simp] theorem Bound.harq_passes : Bound.fails c p .harq = false ↔ p.harqN + selNcb p ≤ c.hSize := by
  simp only [Bound.fails, decide_eq_false_iff_not]
  omega

/-! ### The first failing check -/

/-- `Validate` accepts exactly when every check of the row is false (R197). -/
theorem firstFailing_eq_none (ks : List Check) :
    firstFailing c p ks = none ↔ ∀ k ∈ ks, k.fails c p = false := by
  induction ks with
  | nil => simp [firstFailing]
  | cons k rest ih =>
    simp only [firstFailing, List.forall_mem_cons]
    split
    · simp [*]
    · simp [*]

/-- What `Validate` raises is the error of a check of the row that is true, all checks before it being false (R197). -/
theorem firstFailing_eq_some (ks : List Check) (r : Reason) :
    firstFailing c p ks = some r ↔
      ∃ before k after, ks = before ++ k :: after ∧ (∀ x ∈ before, x.fails c p = false) ∧ k.fails c p = true
        ∧ k.reason = r := by
  induction ks with
  | nil => simp [firstFailing]
  | cons k rest ih =>
    simp only [firstFailing]
    constructor
    · intro h
      split at h
      · rename_i hk
        exact ⟨[], k, rest, rfl, by simp, hk, Option.some.inj h⟩
      · rename_i hk
        obtain ⟨b, x, a, rfl, hb, hx, hr⟩ := ih.1 h
        exact ⟨k :: b, x, a, rfl, List.forall_mem_cons.2 ⟨by simpa using hk, hb⟩, hx, hr⟩
    · rintro ⟨b, x, a, hks, hb, hx, hr⟩
      cases b with
      | nil =>
        obtain ⟨rfl, rfl⟩ := List.cons.inj hks
        rw [if_pos hx, hr]
      | cons y b =>
        obtain ⟨rfl, rfl⟩ := List.cons.inj hks
        have hy : ¬k.fails c p = true := by simp [hb k (by simp)]
        rw [if_neg hy]
        exact ih.2 ⟨b, x, a, rfl, fun w hw => hb w (by simp [hw]), hx, hr⟩

/-- The error of a rejected command is the error of one of its checks. -/
theorem validate_reason {c : Config} {i : Instr} {p : Params} {r : Reason} (h : validate c i p = some r) :
    ∃ k ∈ checksOf i, k.reason = r := by
  obtain ⟨b, k, a, hk, -, -, hr⟩ := (firstFailing_eq_some _ _ _ _).1 h
  exact ⟨k, by rw [hk]; simp, hr⟩

/-- An accepted command passes each of its checks. -/
theorem validate_none {c : Config} {i : Instr} {p : Params} (h : validate c i p = none) {k : Check} (hk : k ∈ checksOf i) :
    k.fails c p = false :=
  (firstFailing_eq_none _ _ _).1 h k hk

/-- A command with the empty-buffer check that is accepted has a usable index, so a buffer (R112, R113). -/
theorem selNcb_pos_of_validate {c : Config} {i : Instr} {p : Params} (h : validate c i p = none) (hk : Check.nu ∈ checksOf i) :
    1 ≤ selNcb p := by
  have hu := validate_none h hk
  simp only [Check.fails, beq_eq_false_iff_ne, ne_eq] at hu
  have := selU_le_selNcb p
  omega

end Sys2Proof.Machine
end

