-- ==== Sys2Proof/Laws/State.lean ====
section
/-! SUPPORT. One lemma per field per update of the state (Machine/Ops.lean, Flags.lean, Validate.lean, Control.lean):
what the update leaves in that field. -/

namespace Sys2Proof.Machine

variable (s : State)

/-! ### State.load -/

@[simp] theorem State.load_cfg (w : Word) (lat : Nat) : (s.load w lat).cfg = s.cfg := rfl
@[simp] theorem State.load_irqEn (w : Word) (lat : Nat) : (s.load w lat).irqEn = s.irqEn := rfl
@[simp] theorem State.load_busy (w : Word) (lat : Nat) : (s.load w lat).busy = true := rfl
@[simp] theorem State.load_done (w : Word) (lat : Nat) : (s.load w lat).done = false := rfl
@[simp] theorem State.load_err (w : Word) (lat : Nat) : (s.load w lat).err = s.err := rfl
@[simp] theorem State.load_ovr (w : Word) (lat : Nat) : (s.load w lat).ovr = s.ovr := rfl
@[simp] theorem State.load_errcode (w : Word) (lat : Nat) : (s.load w lat).errcode = s.errcode := rfl
@[simp] theorem State.load_errcmd (w : Word) (lat : Nat) : (s.load w lat).errcmd = s.errcmd := rfl
@[simp] theorem State.load_params (w : Word) (lat : Nat) : (s.load w lat).params = s.params := rfl
@[simp] theorem State.load_k0raw (w : Word) (lat : Nat) : (s.load w lat).k0raw = s.k0raw := rfl
@[simp] theorem State.load_k0 (w : Word) (lat : Nat) : (s.load w lat).k0 = s.k0 := rfl
@[simp] theorem State.load_ncb (w : Word) (lat : Nat) : (s.load w lat).ncb = s.ncb := rfl
@[simp] theorem State.load_usable (w : Word) (lat : Nat) : (s.load w lat).usable = s.usable := rfl
@[simp] theorem State.load_outlen (w : Word) (lat : Nat) : (s.load w lat).outlen = s.outlen := rfl
@[simp] theorem State.load_cmd (w : Word) (lat : Nat) : (s.load w lat).cmd = w := rfl
@[simp] theorem State.load_snap (w : Word) (lat : Nat) : (s.load w lat).snap = s.params := rfl
@[simp] theorem State.load_mem (w : Word) (lat : Nat) : (s.load w lat).mem = s.mem := rfl
@[simp] theorem State.load_hazard (w : Word) (lat : Nat) : (s.load w lat).hazard = false := rfl
@[simp] theorem State.load_latency (w : Word) (lat : Nat) : (s.load w lat).latency = lat := rfl
@[simp] theorem State.load_freeCtr (w : Word) (lat : Nat) : (s.load w lat).freeCtr = s.freeCtr := rfl
@[simp] theorem State.load_inbox (w : Word) (lat : Nat) : (s.load w lat).inbox = s.inbox := rfl
@[simp] theorem State.load_resp (w : Word) (lat : Nat) : (s.load w lat).resp = s.resp := rfl

/-! ### State.complete -/

@[simp] theorem State.complete_cfg : (s.complete).cfg = s.cfg := rfl
@[simp] theorem State.complete_irqEn : (s.complete).irqEn = s.irqEn := rfl
@[simp] theorem State.complete_busy : (s.complete).busy = false := rfl
@[simp] theorem State.complete_done : (s.complete).done = true := rfl
@[simp] theorem State.complete_err : (s.complete).err = s.err := rfl
@[simp] theorem State.complete_ovr : (s.complete).ovr = s.ovr := rfl
@[simp] theorem State.complete_errcode : (s.complete).errcode = s.errcode := rfl
@[simp] theorem State.complete_errcmd : (s.complete).errcmd = s.errcmd := rfl
@[simp] theorem State.complete_params : (s.complete).params = s.params := rfl
@[simp] theorem State.complete_k0raw : (s.complete).k0raw = s.k0raw := rfl
@[simp] theorem State.complete_k0 : (s.complete).k0 = s.k0 := rfl
@[simp] theorem State.complete_ncb : (s.complete).ncb = s.ncb := rfl
@[simp] theorem State.complete_usable : (s.complete).usable = s.usable := rfl
@[simp] theorem State.complete_outlen : (s.complete).outlen = s.outlen := rfl
@[simp] theorem State.complete_cmd : (s.complete).cmd = s.cmd := rfl
@[simp] theorem State.complete_snap : (s.complete).snap = s.snap := rfl
@[simp] theorem State.complete_mem : (s.complete).mem = s.mem := rfl
@[simp] theorem State.complete_hazard : (s.complete).hazard = false := rfl
@[simp] theorem State.complete_latency : (s.complete).latency = 0 := rfl
@[simp] theorem State.complete_freeCtr : (s.complete).freeCtr = s.freeCtr := rfl
@[simp] theorem State.complete_inbox : (s.complete).inbox = s.inbox := rfl
@[simp] theorem State.complete_resp : (s.complete).resp = s.resp := rfl

/-! ### State.reject -/

@[simp] theorem State.reject_cfg (r : Reason) : (s.reject r).cfg = s.cfg := rfl
@[simp] theorem State.reject_irqEn (r : Reason) : (s.reject r).irqEn = s.irqEn := rfl
@[simp] theorem State.reject_busy (r : Reason) : (s.reject r).busy = false := rfl
@[simp] theorem State.reject_done (r : Reason) : (s.reject r).done = true := rfl
@[simp] theorem State.reject_err (r : Reason) : (s.reject r).err = true := rfl
@[simp] theorem State.reject_ovr (r : Reason) : (s.reject r).ovr = s.ovr := rfl
@[simp] theorem State.reject_errcode (r : Reason) : (s.reject r).errcode = r.code := rfl
@[simp] theorem State.reject_errcmd (r : Reason) : (s.reject r).errcmd = s.cmd := rfl
@[simp] theorem State.reject_params (r : Reason) : (s.reject r).params = s.params := rfl
@[simp] theorem State.reject_k0raw (r : Reason) : (s.reject r).k0raw = s.k0raw := rfl
@[simp] theorem State.reject_k0 (r : Reason) : (s.reject r).k0 = s.k0 := rfl
@[simp] theorem State.reject_ncb (r : Reason) : (s.reject r).ncb = s.ncb := rfl
@[simp] theorem State.reject_usable (r : Reason) : (s.reject r).usable = s.usable := rfl
@[simp] theorem State.reject_outlen (r : Reason) : (s.reject r).outlen = s.outlen := rfl
@[simp] theorem State.reject_cmd (r : Reason) : (s.reject r).cmd = s.cmd := rfl
@[simp] theorem State.reject_snap (r : Reason) : (s.reject r).snap = s.snap := rfl
@[simp] theorem State.reject_mem (r : Reason) : (s.reject r).mem = s.mem := rfl
@[simp] theorem State.reject_hazard (r : Reason) : (s.reject r).hazard = false := rfl
@[simp] theorem State.reject_latency (r : Reason) : (s.reject r).latency = 0 := rfl
@[simp] theorem State.reject_freeCtr (r : Reason) : (s.reject r).freeCtr = s.freeCtr := rfl
@[simp] theorem State.reject_inbox (r : Reason) : (s.reject r).inbox = s.inbox := rfl
@[simp] theorem State.reject_resp (r : Reason) : (s.reject r).resp = s.resp := rfl

/-! ### State.putOutlen -/

@[simp] theorem State.putOutlen_cfg (n : Nat) : (s.putOutlen n).cfg = s.cfg := rfl
@[simp] theorem State.putOutlen_irqEn (n : Nat) : (s.putOutlen n).irqEn = s.irqEn := rfl
@[simp] theorem State.putOutlen_busy (n : Nat) : (s.putOutlen n).busy = s.busy := rfl
@[simp] theorem State.putOutlen_done (n : Nat) : (s.putOutlen n).done = s.done := rfl
@[simp] theorem State.putOutlen_err (n : Nat) : (s.putOutlen n).err = s.err := rfl
@[simp] theorem State.putOutlen_ovr (n : Nat) : (s.putOutlen n).ovr = s.ovr := rfl
@[simp] theorem State.putOutlen_errcode (n : Nat) : (s.putOutlen n).errcode = s.errcode := rfl
@[simp] theorem State.putOutlen_errcmd (n : Nat) : (s.putOutlen n).errcmd = s.errcmd := rfl
@[simp] theorem State.putOutlen_params (n : Nat) : (s.putOutlen n).params = s.params := rfl
@[simp] theorem State.putOutlen_k0raw (n : Nat) : (s.putOutlen n).k0raw = s.k0raw := rfl
@[simp] theorem State.putOutlen_k0 (n : Nat) : (s.putOutlen n).k0 = s.k0 := rfl
@[simp] theorem State.putOutlen_ncb (n : Nat) : (s.putOutlen n).ncb = s.ncb := rfl
@[simp] theorem State.putOutlen_usable (n : Nat) : (s.putOutlen n).usable = s.usable := rfl
@[simp] theorem State.putOutlen_outlen (n : Nat) : (s.putOutlen n).outlen = BitVec.ofNat 32 n := rfl
@[simp] theorem State.putOutlen_cmd (n : Nat) : (s.putOutlen n).cmd = s.cmd := rfl
@[simp] theorem State.putOutlen_snap (n : Nat) : (s.putOutlen n).snap = s.snap := rfl
@[simp] theorem State.putOutlen_mem (n : Nat) : (s.putOutlen n).mem = s.mem := rfl
@[simp] theorem State.putOutlen_hazard (n : Nat) : (s.putOutlen n).hazard = s.hazard := rfl
@[simp] theorem State.putOutlen_latency (n : Nat) : (s.putOutlen n).latency = s.latency := rfl
@[simp] theorem State.putOutlen_freeCtr (n : Nat) : (s.putOutlen n).freeCtr = s.freeCtr := rfl
@[simp] theorem State.putOutlen_inbox (n : Nat) : (s.putOutlen n).inbox = s.inbox := rfl
@[simp] theorem State.putOutlen_resp (n : Nat) : (s.putOutlen n).resp = s.resp := rfl

/-! ### State.putSelector -/

@[simp] theorem State.putSelector_cfg (a b c d : Nat) : (s.putSelector a b c d).cfg = s.cfg := rfl
@[simp] theorem State.putSelector_irqEn (a b c d : Nat) : (s.putSelector a b c d).irqEn = s.irqEn := rfl
@[simp] theorem State.putSelector_busy (a b c d : Nat) : (s.putSelector a b c d).busy = s.busy := rfl
@[simp] theorem State.putSelector_done (a b c d : Nat) : (s.putSelector a b c d).done = s.done := rfl
@[simp] theorem State.putSelector_err (a b c d : Nat) : (s.putSelector a b c d).err = s.err := rfl
@[simp] theorem State.putSelector_ovr (a b c d : Nat) : (s.putSelector a b c d).ovr = s.ovr := rfl
@[simp] theorem State.putSelector_errcode (a b c d : Nat) : (s.putSelector a b c d).errcode = s.errcode := rfl
@[simp] theorem State.putSelector_errcmd (a b c d : Nat) : (s.putSelector a b c d).errcmd = s.errcmd := rfl
@[simp] theorem State.putSelector_params (a b c d : Nat) : (s.putSelector a b c d).params = s.params := rfl
@[simp] theorem State.putSelector_k0raw (a b c d : Nat) : (s.putSelector a b c d).k0raw = BitVec.ofNat 32 a := rfl
@[simp] theorem State.putSelector_k0 (a b c d : Nat) : (s.putSelector a b c d).k0 = BitVec.ofNat 32 b := rfl
@[simp] theorem State.putSelector_ncb (a b c d : Nat) : (s.putSelector a b c d).ncb = BitVec.ofNat 32 c := rfl
@[simp] theorem State.putSelector_usable (a b c d : Nat) : (s.putSelector a b c d).usable = BitVec.ofNat 32 d := rfl
@[simp] theorem State.putSelector_outlen (a b c d : Nat) : (s.putSelector a b c d).outlen = s.outlen := rfl
@[simp] theorem State.putSelector_cmd (a b c d : Nat) : (s.putSelector a b c d).cmd = s.cmd := rfl
@[simp] theorem State.putSelector_snap (a b c d : Nat) : (s.putSelector a b c d).snap = s.snap := rfl
@[simp] theorem State.putSelector_mem (a b c d : Nat) : (s.putSelector a b c d).mem = s.mem := rfl
@[simp] theorem State.putSelector_hazard (a b c d : Nat) : (s.putSelector a b c d).hazard = s.hazard := rfl
@[simp] theorem State.putSelector_latency (a b c d : Nat) : (s.putSelector a b c d).latency = s.latency := rfl
@[simp] theorem State.putSelector_freeCtr (a b c d : Nat) : (s.putSelector a b c d).freeCtr = s.freeCtr := rfl
@[simp] theorem State.putSelector_inbox (a b c d : Nat) : (s.putSelector a b c d).inbox = s.inbox := rfl
@[simp] theorem State.putSelector_resp (a b c d : Nat) : (s.putSelector a b c d).resp = s.resp := rfl

/-! ### State.putSelection -/

@[simp] theorem State.putSelection_cfg : (s.putSelection).cfg = s.cfg := rfl
@[simp] theorem State.putSelection_irqEn : (s.putSelection).irqEn = s.irqEn := rfl
@[simp] theorem State.putSelection_busy : (s.putSelection).busy = s.busy := rfl
@[simp] theorem State.putSelection_done : (s.putSelection).done = s.done := rfl
@[simp] theorem State.putSelection_err : (s.putSelection).err = s.err := rfl
@[simp] theorem State.putSelection_ovr : (s.putSelection).ovr = s.ovr := rfl
@[simp] theorem State.putSelection_errcode : (s.putSelection).errcode = s.errcode := rfl
@[simp] theorem State.putSelection_errcmd : (s.putSelection).errcmd = s.errcmd := rfl
@[simp] theorem State.putSelection_params : (s.putSelection).params = s.params := rfl
@[simp] theorem State.putSelection_k0raw : (s.putSelection).k0raw = BitVec.ofNat 32 (selK0raw s.cfg s.snap) := rfl
@[simp] theorem State.putSelection_k0 : (s.putSelection).k0 = BitVec.ofNat 32 (selK0 s.cfg s.snap) := rfl
@[simp] theorem State.putSelection_ncb : (s.putSelection).ncb = BitVec.ofNat 32 (selNcb s.snap) := rfl
@[simp] theorem State.putSelection_usable : (s.putSelection).usable = BitVec.ofNat 32 (selU s.snap) := rfl
@[simp] theorem State.putSelection_outlen : (s.putSelection).outlen = s.outlen := rfl
@[simp] theorem State.putSelection_cmd : (s.putSelection).cmd = s.cmd := rfl
@[simp] theorem State.putSelection_snap : (s.putSelection).snap = s.snap := rfl
@[simp] theorem State.putSelection_mem : (s.putSelection).mem = s.mem := rfl
@[simp] theorem State.putSelection_hazard : (s.putSelection).hazard = s.hazard := rfl
@[simp] theorem State.putSelection_latency : (s.putSelection).latency = s.latency := rfl
@[simp] theorem State.putSelection_freeCtr : (s.putSelection).freeCtr = s.freeCtr := rfl
@[simp] theorem State.putSelection_inbox : (s.putSelection).inbox = s.inbox := rfl
@[simp] theorem State.putSelection_resp : (s.putSelection).resp = s.resp := rfl

/-! ### State.skipped -/

@[simp] theorem State.skipped_cfg : (s.skipped).cfg = s.cfg := rfl
@[simp] theorem State.skipped_irqEn : (s.skipped).irqEn = s.irqEn := rfl
@[simp] theorem State.skipped_busy : (s.skipped).busy = false := rfl
@[simp] theorem State.skipped_done : (s.skipped).done = true := rfl
@[simp] theorem State.skipped_err : (s.skipped).err = s.err := rfl
@[simp] theorem State.skipped_ovr : (s.skipped).ovr = s.ovr := rfl
@[simp] theorem State.skipped_errcode : (s.skipped).errcode = s.errcode := rfl
@[simp] theorem State.skipped_errcmd : (s.skipped).errcmd = s.errcmd := rfl
@[simp] theorem State.skipped_params : (s.skipped).params = s.params := rfl
@[simp] theorem State.skipped_k0raw : (s.skipped).k0raw = s.k0raw := rfl
@[simp] theorem State.skipped_k0 : (s.skipped).k0 = s.k0 := rfl
@[simp] theorem State.skipped_ncb : (s.skipped).ncb = s.ncb := rfl
@[simp] theorem State.skipped_usable : (s.skipped).usable = s.usable := rfl
@[simp] theorem State.skipped_outlen : (s.skipped).outlen = 0 := rfl
@[simp] theorem State.skipped_cmd : (s.skipped).cmd = s.cmd := rfl
@[simp] theorem State.skipped_snap : (s.skipped).snap = s.snap := rfl
@[simp] theorem State.skipped_mem : (s.skipped).mem = s.mem := rfl
@[simp] theorem State.skipped_hazard : (s.skipped).hazard = false := rfl
@[simp] theorem State.skipped_latency : (s.skipped).latency = 0 := rfl
@[simp] theorem State.skipped_freeCtr : (s.skipped).freeCtr = s.freeCtr := rfl
@[simp] theorem State.skipped_inbox : (s.skipped).inbox = s.inbox := rfl
@[simp] theorem State.skipped_resp : (s.skipped).resp = s.resp := rfl

/-! ### State.clearErrors -/

@[simp] theorem State.clearErrors_cfg : (s.clearErrors).cfg = s.cfg := rfl
@[simp] theorem State.clearErrors_irqEn : (s.clearErrors).irqEn = s.irqEn := rfl
@[simp] theorem State.clearErrors_busy : (s.clearErrors).busy = s.busy := rfl
@[simp] theorem State.clearErrors_done : (s.clearErrors).done = s.done := rfl
@[simp] theorem State.clearErrors_err : (s.clearErrors).err = false := rfl
@[simp] theorem State.clearErrors_ovr : (s.clearErrors).ovr = false := rfl
@[simp] theorem State.clearErrors_errcode : (s.clearErrors).errcode = 0 := rfl
@[simp] theorem State.clearErrors_errcmd : (s.clearErrors).errcmd = 0 := rfl
@[simp] theorem State.clearErrors_params : (s.clearErrors).params = s.params := rfl
@[simp] theorem State.clearErrors_k0raw : (s.clearErrors).k0raw = s.k0raw := rfl
@[simp] theorem State.clearErrors_k0 : (s.clearErrors).k0 = s.k0 := rfl
@[simp] theorem State.clearErrors_ncb : (s.clearErrors).ncb = s.ncb := rfl
@[simp] theorem State.clearErrors_usable : (s.clearErrors).usable = s.usable := rfl
@[simp] theorem State.clearErrors_outlen : (s.clearErrors).outlen = s.outlen := rfl
@[simp] theorem State.clearErrors_cmd : (s.clearErrors).cmd = s.cmd := rfl
@[simp] theorem State.clearErrors_snap : (s.clearErrors).snap = s.snap := rfl
@[simp] theorem State.clearErrors_mem : (s.clearErrors).mem = s.mem := rfl
@[simp] theorem State.clearErrors_hazard : (s.clearErrors).hazard = s.hazard := rfl
@[simp] theorem State.clearErrors_latency : (s.clearErrors).latency = s.latency := rfl
@[simp] theorem State.clearErrors_freeCtr : (s.clearErrors).freeCtr = s.freeCtr := rfl
@[simp] theorem State.clearErrors_inbox : (s.clearErrors).inbox = s.inbox := rfl
@[simp] theorem State.clearErrors_resp : (s.clearErrors).resp = s.resp := rfl

/-! ### State.statusWrite -/

@[simp] theorem State.statusWrite_cfg (v : Word) : (s.statusWrite v).cfg = s.cfg := rfl
@[simp] theorem State.statusWrite_irqEn (v : Word) : (s.statusWrite v).irqEn = s.irqEn := rfl
@[simp] theorem State.statusWrite_busy (v : Word) : (s.statusWrite v).busy = s.busy := rfl
@[simp] theorem State.statusWrite_done (v : Word) : (s.statusWrite v).done = (s.done && !v.getLsbD 1) := rfl
@[simp] theorem State.statusWrite_err (v : Word) : (s.statusWrite v).err = (s.err && !v.getLsbD 2) := rfl
@[simp] theorem State.statusWrite_ovr (v : Word) : (s.statusWrite v).ovr = (s.ovr && !v.getLsbD 3) := rfl
@[simp] theorem State.statusWrite_errcode (v : Word) : (s.statusWrite v).errcode = s.errcode := rfl
@[simp] theorem State.statusWrite_errcmd (v : Word) : (s.statusWrite v).errcmd = s.errcmd := rfl
@[simp] theorem State.statusWrite_params (v : Word) : (s.statusWrite v).params = s.params := rfl
@[simp] theorem State.statusWrite_k0raw (v : Word) : (s.statusWrite v).k0raw = s.k0raw := rfl
@[simp] theorem State.statusWrite_k0 (v : Word) : (s.statusWrite v).k0 = s.k0 := rfl
@[simp] theorem State.statusWrite_ncb (v : Word) : (s.statusWrite v).ncb = s.ncb := rfl
@[simp] theorem State.statusWrite_usable (v : Word) : (s.statusWrite v).usable = s.usable := rfl
@[simp] theorem State.statusWrite_outlen (v : Word) : (s.statusWrite v).outlen = s.outlen := rfl
@[simp] theorem State.statusWrite_cmd (v : Word) : (s.statusWrite v).cmd = s.cmd := rfl
@[simp] theorem State.statusWrite_snap (v : Word) : (s.statusWrite v).snap = s.snap := rfl
@[simp] theorem State.statusWrite_mem (v : Word) : (s.statusWrite v).mem = s.mem := rfl
@[simp] theorem State.statusWrite_hazard (v : Word) : (s.statusWrite v).hazard = s.hazard := rfl
@[simp] theorem State.statusWrite_latency (v : Word) : (s.statusWrite v).latency = s.latency := rfl
@[simp] theorem State.statusWrite_freeCtr (v : Word) : (s.statusWrite v).freeCtr = s.freeCtr := rfl
@[simp] theorem State.statusWrite_inbox (v : Word) : (s.statusWrite v).inbox = s.inbox := rfl
@[simp] theorem State.statusWrite_resp (v : Word) : (s.statusWrite v).resp = s.resp := rfl

/-! ### State.resetRegisters -/

@[simp] theorem State.resetRegisters_cfg : (s.resetRegisters).cfg = s.cfg := rfl
@[simp] theorem State.resetRegisters_irqEn : (s.resetRegisters).irqEn = false := rfl
@[simp] theorem State.resetRegisters_busy : (s.resetRegisters).busy = false := rfl
@[simp] theorem State.resetRegisters_done : (s.resetRegisters).done = false := rfl
@[simp] theorem State.resetRegisters_err : (s.resetRegisters).err = false := rfl
@[simp] theorem State.resetRegisters_ovr : (s.resetRegisters).ovr = false := rfl
@[simp] theorem State.resetRegisters_errcode : (s.resetRegisters).errcode = 0 := rfl
@[simp] theorem State.resetRegisters_errcmd : (s.resetRegisters).errcmd = 0 := rfl
@[simp] theorem State.resetRegisters_params : (s.resetRegisters).params = Params.reset s.cfg := rfl
@[simp] theorem State.resetRegisters_k0raw : (s.resetRegisters).k0raw = 0 := rfl
@[simp] theorem State.resetRegisters_k0 : (s.resetRegisters).k0 = 0 := rfl
@[simp] theorem State.resetRegisters_ncb : (s.resetRegisters).ncb = 0 := rfl
@[simp] theorem State.resetRegisters_usable : (s.resetRegisters).usable = 0 := rfl
@[simp] theorem State.resetRegisters_outlen : (s.resetRegisters).outlen = 0 := rfl
@[simp] theorem State.resetRegisters_cmd : (s.resetRegisters).cmd = 0 := rfl
@[simp] theorem State.resetRegisters_snap : (s.resetRegisters).snap = Params.reset s.cfg := rfl
@[simp] theorem State.resetRegisters_mem : (s.resetRegisters).mem = s.mem := rfl
@[simp] theorem State.resetRegisters_hazard : (s.resetRegisters).hazard = false := rfl
@[simp] theorem State.resetRegisters_latency : (s.resetRegisters).latency = 0 := rfl
@[simp] theorem State.resetRegisters_freeCtr : (s.resetRegisters).freeCtr = s.freeCtr := rfl
@[simp] theorem State.resetRegisters_inbox : (s.resetRegisters).inbox = s.inbox := rfl
@[simp] theorem State.resetRegisters_resp : (s.resetRegisters).resp = s.resp := rfl

/-! ### State.hardwareReset -/

@[simp] theorem State.hardwareReset_cfg : (s.hardwareReset).cfg = s.cfg := rfl
@[simp] theorem State.hardwareReset_irqEn : (s.hardwareReset).irqEn = false := rfl
@[simp] theorem State.hardwareReset_busy : (s.hardwareReset).busy = false := rfl
@[simp] theorem State.hardwareReset_done : (s.hardwareReset).done = false := rfl
@[simp] theorem State.hardwareReset_err : (s.hardwareReset).err = false := rfl
@[simp] theorem State.hardwareReset_ovr : (s.hardwareReset).ovr = false := rfl
@[simp] theorem State.hardwareReset_errcode : (s.hardwareReset).errcode = 0 := rfl
@[simp] theorem State.hardwareReset_errcmd : (s.hardwareReset).errcmd = 0 := rfl
@[simp] theorem State.hardwareReset_params : (s.hardwareReset).params = Params.reset s.cfg := rfl
@[simp] theorem State.hardwareReset_k0raw : (s.hardwareReset).k0raw = 0 := rfl
@[simp] theorem State.hardwareReset_k0 : (s.hardwareReset).k0 = 0 := rfl
@[simp] theorem State.hardwareReset_ncb : (s.hardwareReset).ncb = 0 := rfl
@[simp] theorem State.hardwareReset_usable : (s.hardwareReset).usable = 0 := rfl
@[simp] theorem State.hardwareReset_outlen : (s.hardwareReset).outlen = 0 := rfl
@[simp] theorem State.hardwareReset_cmd : (s.hardwareReset).cmd = 0 := rfl
@[simp] theorem State.hardwareReset_snap : (s.hardwareReset).snap = Params.reset s.cfg := rfl
@[simp] theorem State.hardwareReset_mem : (s.hardwareReset).mem = Memory.fresh s.freeCtr := rfl
@[simp] theorem State.hardwareReset_hazard : (s.hardwareReset).hazard = false := rfl
@[simp] theorem State.hardwareReset_latency : (s.hardwareReset).latency = 0 := rfl
@[simp] theorem State.hardwareReset_freeCtr : (s.hardwareReset).freeCtr = s.freeCtr + 1 := rfl
@[simp] theorem State.hardwareReset_inbox : (s.hardwareReset).inbox = s.inbox := rfl
@[simp] theorem State.hardwareReset_resp : (s.hardwareReset).resp = s.resp := rfl

/-! ### State.putMem -/

@[simp] theorem State.putMem_cfg (ws : List Range) (m : Memory) : (s.putMem ws m).cfg = s.cfg := by
  unfold State.putMem; split <;> rfl
@[simp] theorem State.putMem_irqEn (ws : List Range) (m : Memory) : (s.putMem ws m).irqEn = s.irqEn := by
  unfold State.putMem; split <;> rfl
@[simp] theorem State.putMem_busy (ws : List Range) (m : Memory) : (s.putMem ws m).busy = s.busy := by
  unfold State.putMem; split <;> rfl
@[simp] theorem State.putMem_done (ws : List Range) (m : Memory) : (s.putMem ws m).done = s.done := by
  unfold State.putMem; split <;> rfl
@[simp] theorem State.putMem_err (ws : List Range) (m : Memory) : (s.putMem ws m).err = s.err := by
  unfold State.putMem; split <;> rfl
@[simp] theorem State.putMem_ovr (ws : List Range) (m : Memory) : (s.putMem ws m).ovr = s.ovr := by
  unfold State.putMem; split <;> rfl
@[simp] theorem State.putMem_errcode (ws : List Range) (m : Memory) : (s.putMem ws m).errcode = s.errcode := by
  unfold State.putMem; split <;> rfl
@[simp] theorem State.putMem_errcmd (ws : List Range) (m : Memory) : (s.putMem ws m).errcmd = s.errcmd := by
  unfold State.putMem; split <;> rfl
@[simp] theorem State.putMem_params (ws : List Range) (m : Memory) : (s.putMem ws m).params = s.params := by
  unfold State.putMem; split <;> rfl
@[simp] theorem State.putMem_k0raw (ws : List Range) (m : Memory) : (s.putMem ws m).k0raw = s.k0raw := by
  unfold State.putMem; split <;> rfl
@[simp] theorem State.putMem_k0 (ws : List Range) (m : Memory) : (s.putMem ws m).k0 = s.k0 := by
  unfold State.putMem; split <;> rfl
@[simp] theorem State.putMem_ncb (ws : List Range) (m : Memory) : (s.putMem ws m).ncb = s.ncb := by
  unfold State.putMem; split <;> rfl
@[simp] theorem State.putMem_usable (ws : List Range) (m : Memory) : (s.putMem ws m).usable = s.usable := by
  unfold State.putMem; split <;> rfl
@[simp] theorem State.putMem_outlen (ws : List Range) (m : Memory) : (s.putMem ws m).outlen = s.outlen := by
  unfold State.putMem; split <;> rfl
@[simp] theorem State.putMem_cmd (ws : List Range) (m : Memory) : (s.putMem ws m).cmd = s.cmd := by
  unfold State.putMem; split <;> rfl
@[simp] theorem State.putMem_snap (ws : List Range) (m : Memory) : (s.putMem ws m).snap = s.snap := by
  unfold State.putMem; split <;> rfl
@[simp] theorem State.putMem_hazard (ws : List Range) (m : Memory) : (s.putMem ws m).hazard = s.hazard := by
  unfold State.putMem; split <;> rfl
@[simp] theorem State.putMem_latency (ws : List Range) (m : Memory) : (s.putMem ws m).latency = s.latency := by
  unfold State.putMem; split <;> rfl
@[simp] theorem State.putMem_inbox (ws : List Range) (m : Memory) : (s.putMem ws m).inbox = s.inbox := by
  unfold State.putMem; split <;> rfl
@[simp] theorem State.putMem_resp (ws : List Range) (m : Memory) : (s.putMem ws m).resp = s.resp := by
  unfold State.putMem; split <;> rfl

/-! ### State.recordAccess -/

@[simp] theorem State.recordAccess_cfg (a n : Nat) : (s.recordAccess a n).cfg = s.cfg := by
  unfold State.recordAccess; split <;> rfl
@[simp] theorem State.recordAccess_irqEn (a n : Nat) : (s.recordAccess a n).irqEn = s.irqEn := by
  unfold State.recordAccess; split <;> rfl
@[simp] theorem State.recordAccess_busy (a n : Nat) : (s.recordAccess a n).busy = s.busy := by
  unfold State.recordAccess; split <;> rfl
@[simp] theorem State.recordAccess_done (a n : Nat) : (s.recordAccess a n).done = s.done := by
  unfold State.recordAccess; split <;> rfl
@[simp] theorem State.recordAccess_err (a n : Nat) : (s.recordAccess a n).err = s.err := by
  unfold State.recordAccess; split <;> rfl
@[simp] theorem State.recordAccess_ovr (a n : Nat) : (s.recordAccess a n).ovr = s.ovr := by
  unfold State.recordAccess; split <;> rfl
@[simp] theorem State.recordAccess_errcode (a n : Nat) : (s.recordAccess a n).errcode = s.errcode := by
  unfold State.recordAccess; split <;> rfl
@[simp] theorem State.recordAccess_errcmd (a n : Nat) : (s.recordAccess a n).errcmd = s.errcmd := by
  unfold State.recordAccess; split <;> rfl
@[simp] theorem State.recordAccess_params (a n : Nat) : (s.recordAccess a n).params = s.params := by
  unfold State.recordAccess; split <;> rfl
@[simp] theorem State.recordAccess_k0raw (a n : Nat) : (s.recordAccess a n).k0raw = s.k0raw := by
  unfold State.recordAccess; split <;> rfl
@[simp] theorem State.recordAccess_k0 (a n : Nat) : (s.recordAccess a n).k0 = s.k0 := by
  unfold State.recordAccess; split <;> rfl
@[simp] theorem State.recordAccess_ncb (a n : Nat) : (s.recordAccess a n).ncb = s.ncb := by
  unfold State.recordAccess; split <;> rfl
@[simp] theorem State.recordAccess_usable (a n : Nat) : (s.recordAccess a n).usable = s.usable := by
  unfold State.recordAccess; split <;> rfl
@[simp] theorem State.recordAccess_outlen (a n : Nat) : (s.recordAccess a n).outlen = s.outlen := by
  unfold State.recordAccess; split <;> rfl
@[simp] theorem State.recordAccess_cmd (a n : Nat) : (s.recordAccess a n).cmd = s.cmd := by
  unfold State.recordAccess; split <;> rfl
@[simp] theorem State.recordAccess_snap (a n : Nat) : (s.recordAccess a n).snap = s.snap := by
  unfold State.recordAccess; split <;> rfl
@[simp] theorem State.recordAccess_mem (a n : Nat) : (s.recordAccess a n).mem = s.mem := by
  unfold State.recordAccess; split <;> rfl
@[simp] theorem State.recordAccess_latency (a n : Nat) : (s.recordAccess a n).latency = s.latency := by
  unfold State.recordAccess; split <;> rfl
@[simp] theorem State.recordAccess_inbox (a n : Nat) : (s.recordAccess a n).inbox = s.inbox := by
  unfold State.recordAccess; split <;> rfl
@[simp] theorem State.recordAccess_resp (a n : Nat) : (s.recordAccess a n).resp = s.resp := by
  unfold State.recordAccess; split <;> rfl

theorem State.recordAccess_hazard (a n : Nat) :
    (s.recordAccess a n).hazard = (s.hazard || touches s.flightRanges a n) := by
  unfold State.recordAccess; split <;> simp_all

theorem State.recordAccess_freeCtr (a n : Nat) :
    (s.recordAccess a n).freeCtr = if touches s.flightRanges a n then s.freeCtr + 1 else s.freeCtr := by
  unfold State.recordAccess; split <;> rfl

/-- Without a hazard the effect's memory is the memory. -/
theorem State.putMem_mem_quiet (ws : List Range) (m : Memory) (h : s.hazard = false) : (s.putMem ws m).mem = m := by
  simp [State.putMem, h]

/-- After a hazard the bytes the command writes are free. -/
theorem State.putMem_mem_hazard (ws : List Range) (m : Memory) (h : s.hazard = true) :
    (s.putMem ws m).mem = m.scramble s.freeCtr ws := by
  simp [State.putMem, h]

theorem State.putMem_freeCtr (ws : List Range) (m : Memory) :
    (s.putMem ws m).freeCtr = if s.hazard then s.freeCtr + 1 else s.freeCtr := by
  unfold State.putMem; split <;> rfl

end Sys2Proof.Machine
end

