-- ==== Sys2Proof/Laws/Effect.lean ====
section
/-! SUPPORT. What `exec` can do, said once: a command is rejected with its first failing check or takes its effect and
completes (`exec_eq`); its memory effect keeps the canonical form and writes nothing outside its ranges. -/

namespace Sys2Proof.Machine

/-! ### Memory effects -/

theorem readByte_combineAt_outside (m : Memory) (i b : Nat) (v : Half)
    (h : b < MemId.hmem.addr i ∨ MemId.hmem.addr i + 2 ≤ b) : (combineAt m i v).readByte b = m.readByte b :=
  Memory.readByte_writeHalf_outside _ _ _ _ h

/-- One combining step on the element it names (R137). -/
@[simp] theorem half_combineAt_same (m : Memory) (i : Nat) (v : Half) :
    (combineAt m i v).half .hmem i = combine (m.half .hmem i) v :=
  Memory.readHalf_writeHalf_same _ _ _

/-- One combining step leaves every other accumulator. -/
theorem half_combineAt_other (m : Memory) (i k : Nat) (v : Half) (h : k ≠ i) :
    (combineAt m i v).half .hmem k = m.half .hmem k := by
  refine Memory.readHalf_writeHalf_outside _ _ _ _ ?_
  simp only [MemId.addr, MemId.esz]
  omega

/-- The combining loop writes only the accumulators it names. -/
theorem readByte_combineAll_outside (base n b : Nat) (m : Memory) (todo : List (Nat × Half))
    (hin : ∀ x ∈ todo, x.1 < n) (h : (MemId.hmem.range base n).has b = false) :
    (combineAll base m todo).readByte b = m.readByte b := by
  induction todo generalizing m with
  | nil => rfl
  | cons x rest ih =>
    rw [combineAll, ih _ (fun y hy => hin y (by simp [hy]))]
    refine readByte_combineAt_outside _ _ _ _ ?_
    have hx := hin x (by simp)
    have hb : ¬(MemId.hmem.start + 2 * base ≤ b ∧ b < MemId.hmem.start + 2 * base + 2 * n) :=
      of_decide_eq_false h
    change b < MemId.hmem.start + 2 * (base + x.1) ∨ MemId.hmem.start + 2 * (base + x.1) + 2 ≤ b
    omega

theorem combineAll_wf {m : Memory} (base : Nat) (todo : List (Nat × Half)) (h : m.wf) :
    (combineAll base m todo).wf := by
  induction todo generalizing m with
  | nil => exact h
  | cons x rest ih => exact ih (Memory.writeHalf_wf _ _ h)

/-- The combining loop lists no offset outside the accumulators it names. -/
theorem mem_cells_combineAll {base n : Nat} {m : Memory} {todo : List (Nat × Half)} {c : Host.Cell}
    (hin : ∀ x ∈ todo, x.1 < n) (h : c ∈ (combineAll base m todo).cells) :
    (MemId.hmem.range base n).has c.1 = true ∨ c ∈ m.cells := by
  induction todo generalizing m with
  | nil => exact .inr h
  | cons x rest ih =>
    rcases ih (fun y hy => hin y (by simp [hy])) h with h | h
    · exact .inl h
    · rcases Memory.mem_cells_writeHalf h with h | h
      · left
        have hx := hin x (by simp)
        change MemId.hmem.start + 2 * (base + x.1) ≤ c.1 ∧ c.1 < MemId.hmem.start + 2 * (base + x.1) + 2 at h
        refine (Range.has_iff _ _).2 ?_
        change MemId.hmem.start + 2 * base ≤ c.1 ∧ c.1 < MemId.hmem.start + 2 * base + 2 * n
        omega
      · exact .inr h

theorem mem_combineList_lt {c : Config} {p : Params} {m : Memory} (h : 1 ≤ selNcb p) :
    ∀ x ∈ combineList c p m, x.1 < selNcb p := by
  intro x hx
  have h1 := (List.of_mem_zip hx).1
  rw [selPrefix_eq_map, List.mem_map] at h1
  obtain ⟨j, -, hj⟩ := h1
  rw [← hj]
  exact sel_lt h j

@[simp] theorem interleaveIndices_length (l qm : Nat) : (interleaveIndices l qm).length = l * qm := by
  simp [interleaveIndices, List.length_flatMap]

@[simp] theorem deinterleaveIndices_length (l qm : Nat) : (deinterleaveIndices l qm).length = qm * l := by
  simp [deinterleaveIndices, List.length_flatMap]

/-- The memory effect of each command on undisturbed memory. -/
def memoryEffect (c : Config) : Instr → Params → Memory → Memory
  | .markf, p, m => markfMemory p m
  | .rm, p, m => rmMemory c p m
  | .dm, p, m => dmMemory c p m
  | .dmCf, p, m => dmCfMemory c p m
  | .il, p, m => ilMemory p m
  | .dil, p, m => dilMemory p m
  | .rmil, p, m => ilMemory p (rmMemory c p m)
  | .dildm, p, m => dmMemory c p (dilMemory p m)
  | .dildmCf, p, m => dmCfMemory c p (dilMemory p m)
  | .nop, _, m => m
  | .select, _, m => m
  | .clrerr, _, m => m
  | .rmSkip, _, m => m
  | .dmSkip, _, m => m
  | .ilSkip, _, m => m
  | .dilSkip, _, m => m
  | .rmilSkip, _, m => m
  | .dildmSkip, _, m => m

/-- Each memory function stores inside one range: the bytes outside it stay, the canonical form is kept, and no offset
outside it becomes listed. -/
structure StoresIn (f : Memory → Memory) (rs : List Range) : Prop where
  outside : ∀ m a, anyHas rs a = false → (f m).readByte a = m.readByte a
  wf : ∀ m : Memory, m.wf → (f m).wf
  cells : ∀ (m : Memory) c, c ∈ (f m).cells → anyHas rs c.1 = true ∨ c ∈ m.cells

theorem StoresIn.comp {f g : Memory → Memory} {rs ts : List Range} (hf : StoresIn f rs) (hg : StoresIn g ts) :
    StoresIn (fun m => g (f m)) (rs ++ ts) where
  outside m a h := by
    rw [anyHas, List.any_append, Bool.or_eq_false_iff] at h
    rw [hg.outside _ _ h.2, hf.outside _ _ h.1]
  wf m h := hg.wf _ (hf.wf _ h)
  cells m c h := by
    rw [anyHas, List.any_append, Bool.or_eq_true]
    rcases hg.cells _ _ h with h | h
    · exact .inl (.inr h)
    · rcases hf.cells _ _ h with h | h
      · exact .inl (.inl h)
      · exact .inr h

theorem StoresIn.id : StoresIn (fun m => m) [] where
  outside _ _ _ := rfl
  wf _ h := h
  cells _ _ h := .inr h

theorem anyHas_singleton (r : Range) (a : Nat) : anyHas [r] a = r.has a := by simp [anyHas]

/-- Storing at most `n` byte elements from index `i` on. -/
theorem StoresIn.putBits {x : MemId} {i n : Nat} {vs : Memory → List Byte} (hx : x.esz = 1)
    (hn : ∀ m, (vs m).length ≤ n) : StoresIn (fun m => m.putBits x i (vs m)) [x.range i n] where
  outside m a h := by
    rw [anyHas_singleton] at h
    refine Memory.readByte_putBits_outside _ _ _ _ _ hx ?_
    have := hn m
    simp only [Range.has, MemId.range, hx, decide_eq_false_iff_not] at h ⊢
    omega
  wf m h := Memory.putBits_wf _ _ _ h
  cells m c h := by
    rcases Memory.mem_cells_writeBytes h with h | h
    · left
      have := hn m
      rw [anyHas_singleton]
      simp only [Range.has, MemId.range, hx, decide_eq_true_eq]
      omega
    · exact .inr h

/-- Storing at most `n` 16-bit elements from index `i` on. -/
theorem StoresIn.putHalves {x : MemId} {i n : Nat} {vs : Memory → List Half} (hx : x.esz = 2)
    (hn : ∀ m, (vs m).length ≤ n) : StoresIn (fun m => m.putHalves x i (vs m)) [x.range i n] where
  outside m a h := by
    rw [anyHas_singleton] at h
    refine Memory.readByte_putHalves_outside _ _ _ _ _ hx ?_
    have := hn m
    simp only [Range.has, MemId.range, hx, decide_eq_false_iff_not] at h ⊢
    omega
  wf m h := Memory.putHalves_wf _ _ _ h
  cells m c h := by
    rcases Memory.mem_cells_writeHalves h with h | h
    · left
      have := hn m
      rw [anyHas_singleton]
      simp only [Range.has, MemId.range, hx, decide_eq_true_eq]
      omega
    · exact .inr h

theorem StoresIn.dm {c : Config} {p : Params} (h : 1 ≤ selNcb p) :
    StoresIn (dmMemory c p) [MemId.hmem.range p.harqN (selNcb p)] where
  outside m a ha := by
    rw [anyHas_singleton] at ha
    exact readByte_combineAll_outside _ _ _ _ _ (mem_combineList_lt h) ha
  wf m hm := combineAll_wf _ _ hm
  cells m c hc := by
    rw [anyHas_singleton]
    exact mem_cells_combineAll (mem_combineList_lt h) hc

/-- Storing twice in the same ranges stores in them. -/
theorem StoresIn.again {f g : Memory → Memory} {rs : List Range} (hf : StoresIn f rs) (hg : StoresIn g rs) :
    StoresIn (fun m => g (f m)) rs where
  outside m a h := by rw [hg.outside _ _ h, hf.outside _ _ h]
  wf m h := hg.wf _ (hf.wf _ h)
  cells m c h := by
    rcases hg.cells _ _ h with h | h
    · exact .inl h
    · exact hf.cells _ _ h

theorem StoresIn.dmCf {c : Config} {p : Params} (h : 1 ≤ selNcb p) :
    StoresIn (dmCfMemory c p) [MemId.hmem.range p.harqN (selNcb p)] :=
  StoresIn.again (f := clearHarq p)
    (StoresIn.putHalves (x := .hmem) (i := p.harqN) (vs := fun _ => List.replicate (selNcb p) 0) rfl (by simp))
    (StoresIn.dm h)

theorem StoresIn.rm (c : Config) (p : Params) : StoresIn (rmMemory c p) [MemId.emem.range 0 p.eN] :=
  StoresIn.putBits (vs := fun m => (selPrefix c p p.eN).map fun i => m.bit .dmem i) rfl (by simp)

theorem StoresIn.il (p : Params) : StoresIn (ilMemory p) [MemId.omem.range p.outN p.eN] :=
  StoresIn.putBits (vs := fun m => (interleaveIndices (p.eN / p.qmN) p.qmN).map fun k => m.bit .emem k) rfl
    (by simp [Nat.div_mul_le_self])

theorem StoresIn.dil (p : Params) : StoresIn (dilMemory p) [MemId.lmem.range 0 p.eN] :=
  StoresIn.putHalves
    (vs := fun m => (deinterleaveIndices (p.eN / p.qmN) p.qmN).map fun k => m.half .rmem (p.rxN + k)) rfl
    (by simp [Nat.mul_div_le])

theorem StoresIn.markf (p : Params) : StoresIn (markfMemory p) [MemId.dmem.range p.foffN p.fN] :=
  StoresIn.putBits (vs := fun _ => List.replicate p.fN p.sentinel) rfl (by simp)

/-- An accepted command's memory effect stays in its write ranges (R60, R66). -/
theorem memoryEffect_storesIn {i : Instr} {c : Config} {p : Params} (h : validate c i p = none) :
    StoresIn (memoryEffect c i p) (writeRanges i p) := by
  cases i
  case markf => exact StoresIn.markf p
  case rm => exact StoresIn.rm c p
  case dm => exact StoresIn.dm (selNcb_pos_of_validate h (by simp [checksOf]))
  case dmCf => exact StoresIn.dmCf (selNcb_pos_of_validate h (by simp [checksOf]))
  case il => exact StoresIn.il p
  case dil => exact StoresIn.dil p
  case rmil => exact StoresIn.comp (StoresIn.rm c p) (StoresIn.il p)
  case dildm => exact StoresIn.comp (StoresIn.dil p) (StoresIn.dm (selNcb_pos_of_validate h (by simp [checksOf])))
  case dildmCf =>
    exact StoresIn.comp (StoresIn.dil p) (StoresIn.dmCf (selNcb_pos_of_validate h (by simp [checksOf])))
  all_goals exact StoresIn.id

/-! ### What `exec` can answer -/

/-- The state each command leaves before it completes, its checks having passed. -/
def effect : Instr → State → State
  | .nop, s => s.putOutlen 0
  | .select, s => s.putSelection.putOutlen 0
  | .markf, s => (s.putMem (writeRanges .markf s.snap) (memoryEffect s.cfg .markf s.snap s.mem)).putOutlen s.snap.fN
  | .rm, s => ((s.putMem (writeRanges .rm s.snap) (memoryEffect s.cfg .rm s.snap s.mem)).putSelection).putOutlen s.snap.eN
  | .dm, s => ((s.putMem (writeRanges .dm s.snap) (memoryEffect s.cfg .dm s.snap s.mem)).putSelection).putOutlen s.snap.eN
  | .dmCf, s =>
    ((s.putMem (writeRanges .dmCf s.snap) (memoryEffect s.cfg .dmCf s.snap s.mem)).putSelection).putOutlen s.snap.eN
  | .il, s => (s.putMem (writeRanges .il s.snap) (memoryEffect s.cfg .il s.snap s.mem)).putOutlen s.snap.eN
  | .dil, s => (s.putMem (writeRanges .dil s.snap) (memoryEffect s.cfg .dil s.snap s.mem)).putOutlen s.snap.eN
  | .rmil, s =>
    ((s.putMem (writeRanges .rmil s.snap) (memoryEffect s.cfg .rmil s.snap s.mem)).putSelection).putOutlen s.snap.eN
  | .dildm, s =>
    ((s.putMem (writeRanges .dildm s.snap) (memoryEffect s.cfg .dildm s.snap s.mem)).putSelection).putOutlen s.snap.eN
  | .dildmCf, s =>
    ((s.putMem (writeRanges .dildmCf s.snap) (memoryEffect s.cfg .dildmCf s.snap s.mem)).putSelection).putOutlen s.snap.eN
  | .clrerr, s => s.clearErrors.putOutlen 0
  | .rmSkip, s => s.putOutlen 0
  | .dmSkip, s => s.putOutlen 0
  | .ilSkip, s => s.putOutlen 0
  | .dilSkip, s => s.putOutlen 0
  | .rmilSkip, s => s.putOutlen 0
  | .dildmSkip, s => s.putOutlen 0

theorem validated_eq (i : Instr) (f : State → State) (s : State) :
    validated i f s = .next (match validate s.cfg i s.snap with
      | some r => s.reject r
      | none => (f s).complete) := by
  unfold validated
  cases validate s.cfg i s.snap <;> rfl

/-- Everything `exec` can do (R197, R199): the rejection with the first failing check, or the effect and completion. -/
theorem exec_eq (i : Instr) (s : State) :
    exec i s = .next (match validate s.cfg i s.snap with
      | some r => s.reject r
      | none => (effect i s).complete) := by
  cases i
  case nop => rfl
  case clrerr => rfl
  case rmSkip => rfl
  case dmSkip => rfl
  case ilSkip => rfl
  case dilSkip => rfl
  case rmilSkip => rfl
  case dildmSkip => rfl
  case select => exact validated_eq .select (effect .select) s
  case markf => exact validated_eq .markf (effect .markf) s
  case rm => exact validated_eq .rm (effect .rm) s
  case dm => exact validated_eq .dm (effect .dm) s
  case dmCf => exact validated_eq .dmCf (effect .dmCf) s
  case il => exact validated_eq .il (effect .il) s
  case dil => exact validated_eq .dil (effect .dil) s
  case rmil => exact validated_eq .rmil (effect .rmil) s
  case dildm => exact validated_eq .dildm (effect .dildm) s
  case dildmCf => exact validated_eq .dildmCf (effect .dildmCf) s

theorem exec_rejected {i : Instr} {s : State} {r : Reason} (h : validate s.cfg i s.snap = some r) :
    exec i s = .next (s.reject r) := by
  rw [exec_eq, h]

theorem exec_accepted {i : Instr} {s : State} (h : validate s.cfg i s.snap = none) :
    exec i s = .next (effect i s).complete := by
  rw [exec_eq, h]

/-- The memory an accepted command leaves: its effect, free in its write ranges after a hazard (R240). -/
theorem effect_mem (i : Instr) (s : State) :
    (effect i s).mem = if s.hazard then (memoryEffect s.cfg i s.snap s.mem).scramble s.freeCtr (writeRanges i s.snap)
      else memoryEffect s.cfg i s.snap s.mem := by
  cases i <;> simp only [effect, State.putOutlen_mem, State.putSelection_mem, State.clearErrors_mem, State.putMem] <;>
    split <;> rfl

/-- What no command's effect touches: the parameter registers, the snapshot, the interrupt enable, what the host still
sends and the last answer. -/
theorem effect_frame (i : Instr) (s : State) :
    (effect i s).irqEn = s.irqEn ∧ (effect i s).params = s.params ∧ (effect i s).snap = s.snap
      ∧ (effect i s).cmd = s.cmd ∧ (effect i s).inbox = s.inbox ∧ (effect i s).resp = s.resp := by
  cases i <;> simp [effect]

end Sys2Proof.Machine
end

