-- ==== Sys2Proof/Laws/Bus.lean ====
section
/-! SUPPORT. What a host access, an input and a step can do (Machine/Bus.lean, Machine/Step.lean), said once each. -/

namespace Sys2Proof.Machine

/-! ### Which accesses are legal -/

theorem Reg.mem_all (r : Reg) : r ∈ Reg.all := by cases r <;> decide

theorem Reg.offset_inj {r q : Reg} (h : r.offset = q.offset) : r = q := by
  revert h
  cases r <;> cases q <;> decide

theorem Reg.offset_lt (r : Reg) : r.offset < 0x1000 := by cases r <;> decide

theorem Reg.offset_aligned (r : Reg) : r.offset % 4 = 0 := by cases r <;> decide

theorem Reg.ofOffset_eq_some {a : Nat} {r : Reg} : Reg.ofOffset a = some r ↔ r.offset = a := by
  constructor
  · intro h
    simpa using List.find?_some h
  · rintro rfl
    cases hf : Reg.ofOffset r.offset with
    | none =>
      rw [Reg.ofOffset, List.find?_eq_none] at hf
      exact absurd (beq_self_eq_true _) (hf r (Reg.mem_all r))
    | some q =>
      have : q.offset = r.offset := by simpa using List.find?_some hf
      rw [Reg.offset_inj this]

theorem MemId.mem_all (m : MemId) : m ∈ MemId.all := by cases m <;> decide

theorem MemId.start_ge (m : MemId) : 0x1000 ≤ m.start := by cases m <;> decide

/-- The memory found at an offset holds it. -/
theorem MemId.ofAddr_holds {c : Config} {a : Nat} {m : MemId} (h : MemId.ofAddr c a = some m) :
    m.start ≤ a ∧ a < m.start + m.bytes c := by
  simpa using List.find?_some h

theorem MemId.ofAddr_eq_some {c : Config} (hc : c.Valid) {a : Nat} {m : MemId} :
    MemId.ofAddr c a = some m ↔ m.start ≤ a ∧ a < m.start + m.bytes c := by
  constructor
  · exact MemId.ofAddr_holds
  · intro h
    cases hf : MemId.ofAddr c a with
    | none =>
      rw [MemId.ofAddr, List.find?_eq_none] at hf
      exact absurd (decide_eq_true h) (hf m (MemId.mem_all m))
    | some q =>
      have hq : q.start ≤ a ∧ a < q.start + q.bytes c := by simpa using List.find?_some hf
      by_cases hne : q = m
      · rw [hne]
      · have := MemId.apart hc hne
        omega

/-- The accesses to a register (R73). -/
theorem target_register {c : Config} {a n : Nat} {r : Reg} : target c a n = .ok (.register r) ↔ n = 4 ∧ a = r.offset := by
  constructor
  · intro h
    unfold target at h
    split at h
    · split at h
      · simp at h
      · split at h
        · simp at h
        · split at h
          · rename_i q hq
            have : q = r := by simpa using h
            subst this
            exact ⟨by omega, (Reg.ofOffset_eq_some.1 hq).symm⟩
          · simp at h
    · split at h
      · simp at h
      · split at h
        · simp at h
        · split at h
          · simp at h
          · split at h <;> simp at h
  · rintro ⟨rfl, rfl⟩
    simp [target, Reg.offset_lt, Reg.offset_aligned, Reg.ofOffset_eq_some.2 rfl]

/-- An access that goes to a memory window is one that R72 allows there. -/
theorem target_window_legal {c : Config} {a n : Nat} {m : MemId} (h : target c a n = .ok (.window m)) :
    (n = 1 ∨ n = 2 ∨ n = 4) ∧ a % n = 0 ∧ m.start ≤ a ∧ a + n ≤ m.start + m.bytes c := by
  unfold target at h
  split at h
  · split at h
    · simp at h
    · split at h
      · simp at h
      · split at h <;> simp at h
  · split at h
    · simp at h
    · rename_i q hq
      split at h
      · simp at h
      · split at h
        · simp at h
        · split at h
          · simp at h
          · have : q = m := by simpa using h
            subst this
            have := MemId.ofAddr_holds hq
            omega

/-- The accesses to a memory window (R72). -/
theorem target_window {c : Config} (hc : c.Valid) {a n : Nat} {m : MemId} :
    target c a n = .ok (.window m) ↔
      (n = 1 ∨ n = 2 ∨ n = 4) ∧ a % n = 0 ∧ m.start ≤ a ∧ a + n ≤ m.start + m.bytes c := by
  refine ⟨target_window_legal, ?_⟩
  rintro ⟨hn, ha, h1, h2⟩
  have hge := MemId.start_ge m
  have ho : MemId.ofAddr c a = some m := (MemId.ofAddr_eq_some hc).2 ⟨h1, by omega⟩
  unfold target
  rw [if_neg (by omega), ho]
  simp only
  rw [if_neg (by omega), if_neg (by omega), if_neg (by omega)]

/-! ### The ranges of an accepted command are mapped -/

/-- Elements `[lo, lo + n)` of a memory that has them lie in its mapped part (R66, R70). -/
theorem MemId.range_mapped {c : Config} {x : MemId} {lo n a : Nat} (h : lo + n ≤ x.elems c) (ha : (x.range lo n).has a = true) :
    x.start ≤ a ∧ a < x.start + x.bytes c := by
  rw [Range.has_iff] at ha
  simp only [MemId.range, MemId.addr] at ha
  have := Nat.mul_le_mul_left x.esz h
  rw [Nat.mul_add] at this
  simp only [MemId.bytes]
  omega

/-- Every byte an accepted command writes is in the mapped part of a memory (R66). -/
theorem writeRanges_mapped {c : Config} (hc : c.Valid) {i : Instr} {p : Params} (h : validate c i p = none) {a : Nat}
    (ha : anyHas (writeRanges i p) a = true) : (MemId.ofAddr c a).isSome := by
  have key : ∀ r ∈ writeRanges i p, ∃ x : MemId, ∃ lo n, r = x.range lo n ∧ lo + n ≤ x.elems c := by
    have hb : ∀ bs : List Bound, Check.buf bs ∈ checksOf i → ∀ b ∈ bs, Bound.fails c p b = false :=
      fun bs hk => (Check.buf_passes c p bs).1 (validate_none h hk)
    have hE : ∀ bs : List Bound, Check.buf bs ∈ checksOf i → Bound.e ∈ bs → p.eN ≤ c.eMax :=
      fun bs hk hm => (Bound.e_passes c p).1 (hb bs hk _ hm)
    have hOut : ∀ bs : List Bound, Check.buf bs ∈ checksOf i → Bound.out ∈ bs → p.outN + p.eN ≤ c.gMax :=
      fun bs hk hm => (Bound.out_passes c p).1 (hb bs hk _ hm)
    have hHarq : ∀ bs : List Bound, Check.buf bs ∈ checksOf i → Bound.harq ∈ bs →
        p.harqN + selNcb p ≤ c.hSize :=
      fun bs hk hm => (Bound.harq_passes c p).1 (hb bs hk _ hm)
    intro r hr
    cases i
    case markf =>
      have hz := (Check.z_passes c p).1 (validate_none h (by simp [checksOf]))
      have hf := (Check.fr_passes c p).1 (validate_none h (by simp [checksOf]))
      have := selN_le_dSize hc hz.2
      simp only [writeRanges, List.mem_singleton] at hr
      exact ⟨.dmem, _, _, hr, by simp only [MemId.elems]; omega⟩
    case rm =>
      have := hE _ (by simp [checksOf]; rfl) (by simp)
      simp only [writeRanges, List.mem_singleton] at hr
      exact ⟨.emem, _, _, hr, by simp only [MemId.elems]; omega⟩
    case dm =>
      have := hHarq _ (by simp [checksOf]; rfl) (by simp)
      simp only [writeRanges, List.mem_singleton] at hr
      exact ⟨.hmem, _, _, hr, by simp only [MemId.elems]; omega⟩
    case dmCf =>
      have := hHarq _ (by simp [checksOf]; rfl) (by simp)
      simp only [writeRanges, List.mem_singleton] at hr
      exact ⟨.hmem, _, _, hr, by simp only [MemId.elems]; omega⟩
    case il =>
      have := hOut _ (by simp [checksOf]; rfl) (by simp)
      simp only [writeRanges, List.mem_singleton] at hr
      exact ⟨.omem, _, _, hr, by simp only [MemId.elems]; omega⟩
    case dil =>
      have := hE _ (by simp [checksOf]; rfl) (by simp)
      simp only [writeRanges, List.mem_singleton] at hr
      exact ⟨.lmem, _, _, hr, by simp only [MemId.elems]; omega⟩
    case rmil =>
      have h1 := hE _ (by simp [checksOf]; rfl) (by simp)
      have h2 := hOut _ (by simp [checksOf]; rfl) (by simp)
      simp only [writeRanges, List.mem_cons, List.not_mem_nil, or_false] at hr
      rcases hr with hr | hr
      · exact ⟨.emem, _, _, hr, by simp only [MemId.elems]; omega⟩
      · exact ⟨.omem, _, _, hr, by simp only [MemId.elems]; omega⟩
    case dildm =>
      have h1 := hE _ (by simp [checksOf]; rfl) (by simp)
      have h2 := hHarq _ (by simp [checksOf]; rfl) (by simp)
      simp only [writeRanges, List.mem_cons, List.not_mem_nil, or_false] at hr
      rcases hr with hr | hr
      · exact ⟨.lmem, _, _, hr, by simp only [MemId.elems]; omega⟩
      · exact ⟨.hmem, _, _, hr, by simp only [MemId.elems]; omega⟩
    case dildmCf =>
      have h1 := hE _ (by simp [checksOf]; rfl) (by simp)
      have h2 := hHarq _ (by simp [checksOf]; rfl) (by simp)
      simp only [writeRanges, List.mem_cons, List.not_mem_nil, or_false] at hr
      rcases hr with hr | hr
      · exact ⟨.lmem, _, _, hr, by simp only [MemId.elems]; omega⟩
      · exact ⟨.hmem, _, _, hr, by simp only [MemId.elems]; omega⟩
    all_goals simp [writeRanges] at hr
  rw [anyHas, List.any_eq_true] at ha
  obtain ⟨r, hr, har⟩ := ha
  obtain ⟨x, lo, n, rfl, hle⟩ := key r hr
  exact MemId.ofAddr_isSome (MemId.range_mapped hle har)

/-- The command in flight is one that is busy, decodes and passes its checks. -/
theorem running_eq_some {s : State} {i : Instr} :
    s.running = some i ↔ s.busy = true ∧ decode s.cmd = .cmd i ∧ validate s.cfg i s.snap = none := by
  unfold State.running
  cases s.busy <;> cases hd : decode s.cmd <;> simp
  rename_i j
  constructor
  · rintro ⟨h, rfl⟩
    exact ⟨rfl, h⟩
  · rintro ⟨rfl, h⟩
    exact ⟨h, rfl⟩

/-- Every byte the command in flight writes is mapped (R66). -/
theorem flightWrites_mapped {s : State} (hc : s.cfg.Valid) {a : Nat} (h : anyHas s.flightWrites a = true) :
    (MemId.ofAddr s.cfg a).isSome := by
  unfold State.flightWrites at h
  cases hr : s.running with
  | none => simp [hr, anyHas] at h
  | some i =>
    rw [hr] at h
    exact writeRanges_mapped hc (running_eq_some.1 hr).2.2 h

theorem flightWrites_idle {s : State} (h : s.busy = false) : s.flightWrites = [] := by
  simp [State.flightWrites, State.running, h]

theorem flightRanges_of_running {s : State} {i : Instr} (h : s.running = some i) :
    s.flightRanges = readRanges i s.snap ++ writeRanges i s.snap := by
  simp [State.flightRanges, State.flightReads, State.flightWrites, h]

theorem flightReads_idle {s : State} (h : s.busy = false) : s.flightReads = [] := by
  simp [State.flightReads, State.running, h]

theorem flightRanges_idle {s : State} (h : s.busy = false) : s.flightRanges = [] := by
  rw [State.flightRanges, flightReads_idle h, flightWrites_idle h]
  rfl

@[simp] theorem touches_nil (a n : Nat) : touches [] a n = false := by
  simp [touches, anyHas]

/-- An access touches the ranges when one of its bytes is in one of them. -/
theorem touches_iff (rs : List Range) (a n : Nat) : touches rs a n = true ↔ ∃ k < n, anyHas rs (a + k) = true := by
  simp [touches]

/-! ### What a soft reset does -/

theorem softReset_idle {s : State} (h : s.busy = false) : s.softReset = s.resetRegisters := by
  simp [State.softReset, h]

theorem softReset_busy {s : State} (h : s.busy = true) :
    s.softReset = { s.resetRegisters with mem := s.mem.scramble s.freeCtr s.flightWrites, freeCtr := s.freeCtr + 1 } := by
  simp [State.softReset, h]

@[simp] theorem softReset_inbox (s : State) : s.softReset.inbox = s.inbox := by
  unfold State.softReset; split <;> rfl

/-! ### What a window access does -/

@[simp] theorem accessBytes_length (s : State) (a n : Nat) (quiet : Nat → Byte) : (s.accessBytes a n quiet).length = n := by
  simp [State.accessBytes]

/-- With no command in flight an access is recorded nowhere. -/
theorem recordAccess_idle {s : State} (h : s.busy = false) (a n : Nat) : s.recordAccess a n = s := by
  simp [State.recordAccess, flightRanges_idle h]

/-- What each byte of memory reads as after a window write (R74, R76). -/
theorem readByte_writeWindow (s : State) (a n b : Nat) (v : Word) :
    (s.writeWindow a n v).mem.readByte b
      = if a ≤ b ∧ b < a + n then
          if anyHas s.flightRanges b then Config.freeByte s.freeCtr b else v.extractLsb' (8 * (b - a)) 8
        else s.mem.readByte b := by
  simp only [State.writeWindow, Memory.readByte_writeBytes, accessBytes_length]
  split
  · rename_i h
    have hk : b - a < n := by omega
    have hb : a + (b - a) = b := by omega
    simp [State.accessBytes, hk, hb]
  · rfl

/-! ### What an input can do -/

/-- Every outcome of an input that answers a next state. -/
theorem input_cases {s t : State} {x : Input} (h : input s x = .next t) :
    (∃ r, x = .read r.offset 4 ∧ t = { s with resp := .data (s.readReg r) }) ∨
    (∃ a n m, x = .read a n ∧ target s.cfg a n = .ok (.window m) ∧ t = s.readWindow a n) ∨
    (∃ r v, x = .write r.offset 4 v ∧ t = { s.writeReg r v with resp := .written }) ∨
    (∃ a n m v, x = .write a n v ∧ target s.cfg a n = .ok (.window m) ∧ t = s.writeWindow a n v) ∨
    (x = .wait ∧ t = { s with
      resp := .data s.statusWord, inbox := if s.busy then .wait :: s.inbox else s.inbox }) ∨
    (x = .hwReset ∧ t = s.hardwareReset) := by
  cases x with
  | read a n =>
    simp only [input, hostRead] at h
    split at h
    · simp at h
    · rename_i r hr
      obtain ⟨rfl, rfl⟩ := target_register.1 hr
      exact .inl ⟨r, rfl, (Host.Outcome.next.inj h).symm⟩
    · rename_i m hm
      exact .inr (.inl ⟨a, n, m, rfl, hm, (Host.Outcome.next.inj h).symm⟩)
  | write a n v =>
    simp only [input, hostWrite] at h
    split at h
    · simp at h
    · rename_i r hr
      obtain ⟨rfl, rfl⟩ := target_register.1 hr
      exact .inr (.inr (.inl ⟨r, v, rfl, (Host.Outcome.next.inj h).symm⟩))
    · rename_i m hm
      exact .inr (.inr (.inr (.inl ⟨a, n, m, v, rfl, hm, (Host.Outcome.next.inj h).symm⟩)))
  | wait => exact .inr (.inr (.inr (.inr (.inl ⟨rfl, (Host.Outcome.next.inj h).symm⟩))))
  | hwReset => exact .inr (.inr (.inr (.inr (.inr ⟨rfl, (Host.Outcome.next.inj h).symm⟩))))

/-! ### What a step can do -/

/-- Every outcome of a step that answers a next state: the engine completes or rejects its command, the block is idle
and the host does nothing, or the host makes its next access. -/
theorem step_cases {s t : State} (h : step s = .next t) :
    (s.engineTurn = true ∧ ∃ i, decode s.cmd = .cmd i ∧ exec i s = .next t) ∨
    (s.engineTurn = true ∧ ∃ d, decode s.cmd = .illegal d ∧ t = s.reject (.illegalCommand d)) ∨
    (s.engineTurn = false ∧ s.inbox = [] ∧ t = s) ∨
    (s.engineTurn = false ∧ ∃ x rest, s.inbox = x :: rest
      ∧ input { s with inbox := rest, latency := s.latency - 1 } x = .next t) := by
  unfold step at h
  split at h
  · rename_i ht
    unfold engineStep at h
    split at h
    · rename_i i hi
      exact .inl ⟨ht, i, hi, h⟩
    · rename_i d hd
      exact .inr (.inl ⟨ht, d, hd, (Host.Outcome.next.inj h).symm⟩)
  · rename_i ht
    have ht : s.engineTurn = false := by simpa using ht
    split at h
    · rename_i hi
      exact .inr (.inr (.inl ⟨ht, hi, (Host.Outcome.next.inj h).symm⟩))
    · rename_i x rest hi
      exact .inr (.inr (.inr ⟨ht, x, rest, hi, h⟩))

end Sys2Proof.Machine
end

