-- ==== Sys2Proof/Laws/Decode.lean ====
section
/-! SUPPORT. The decoder (R94) said over the fields and their checks (R86, R91). -/

namespace Sys2Proof

/-- The decoder's tests as a function of the fields. -/
def decodeFields (f : Fields) : Decoded :=
  if 0xA ≤ f.op.toNat then .illegal .rsvOp
  else if f.rsva ≠ 0 ∨ f.rsvb ≠ 0 then .illegal .rsvBits
  else if f.cf = true ∧ ¬(f.op = 0x4 ∨ f.op = 0x8) then .illegal .badFlag
  else if f.skip = true ∧ (f.op = 0x0 ∨ f.op = 0x1 ∨ f.op = 0x2 ∨ f.op = 0x9) then .illegal .badFlag
  else if f.cf = true ∧ f.skip = true then .illegal .cfSkip
  else commandOf f.op f.cf f.skip

/-- The decoder reads nothing of a word but its fields. -/
theorem decode_eq_decodeFields (w : Word) : decode w = decodeFields (fieldsOf w) := rfl

/-- A command's opcode is below 0xA, whatever its flags (R89). -/
theorem commandOf_eq_cmd {op : BitVec 4} (h : op.toNat < 0xA) (cf skip : Bool) : ∃ i, commandOf op cf skip = .cmd i := by
  have key : ∀ op : BitVec 4, op.toNat < 0xA → ∀ cf skip : Bool,
      commandOf op cf skip ∈ Instr.all.map Decoded.cmd := by decide
  obtain ⟨i, -, hi⟩ := List.mem_map.1 (key op h cf skip)
  exact ⟨i, hi.symm⟩

/-- The flag tests of R94 are those of R90. -/
theorem badFlag_iff {f : Fields} (h : f.op.toNat < 0xA) :
    ((f.cf = true ∧ f.permitsCf = false) ∨ (f.skip = true ∧ f.permitsSkip = false)) ↔
      ((f.cf = true ∧ ¬(f.op = 0x4 ∨ f.op = 0x8))
        ∨ (f.skip = true ∧ (f.op = 0x0 ∨ f.op = 0x1 ∨ f.op = 0x2 ∨ f.op = 0x9))) := by
  obtain ⟨op, ra, cf, skip, rb⟩ := f
  simp only [Fields.permitsCf, Fields.permitsSkip] at h ⊢
  clear ra rb
  revert op cf skip
  decide

/-- The decoder rejects a word exactly with the first condition of R91 that its fields meet. -/
theorem decode_eq_illegal (w : Word) (d : Illegal) : decode w = .illegal d ↔ (fieldsOf w).illegality = some d := by
  rw [decode_eq_decodeFields]
  generalize fieldsOf w = f
  unfold decodeFields Fields.illegality
  by_cases h1 : 0xA ≤ f.op.toNat
  · simp [h1]
  · rw [if_neg h1, if_neg h1]
    by_cases h2 : f.rsva ≠ 0 ∨ f.rsvb ≠ 0
    · rw [if_pos h2, if_pos h2]
      simp
    · rw [if_neg h2, if_neg h2]
      have hb := badFlag_iff (f := f) (by omega)
      by_cases h3 : f.cf = true ∧ ¬(f.op = 0x4 ∨ f.op = 0x8)
      · rw [if_pos h3, if_pos (hb.2 (.inl h3))]
        simp
      · rw [if_neg h3]
        by_cases h4 : f.skip = true ∧ (f.op = 0x0 ∨ f.op = 0x1 ∨ f.op = 0x2 ∨ f.op = 0x9)
        · rw [if_pos h4, if_pos (hb.2 (.inr h4))]
          simp
        · rw [if_neg h4, if_neg (fun h => (hb.1 h).elim h3 h4)]
          by_cases h5 : f.cf = true ∧ f.skip = true
          · rw [if_pos h5, if_pos h5]
            simp
          · rw [if_neg h5, if_neg h5]
            obtain ⟨i, hi⟩ := commandOf_eq_cmd (by omega : f.op.toNat < 0xA) f.cf f.skip
            simp [hi]

end Sys2Proof
end

