-- ==== Sys2Proof/Laws/Elements.lean ====
section
/-! SUPPORT. What each command leaves in one element: the memory functions of Machine/Ratematch.lean, Dematch.lean and
Interleave.lean read element by element. -/

namespace Sys2Proof.Machine

/-- The combining loop on one accumulator: the LLRs of the pairs that name it, one saturating addition each, in the
list's order (R136, R138). -/
theorem half_combineAll (base i : Nat) (m : Memory) (todo : List (Nat × Half)) :
    (combineAll base m todo).half .hmem (base + i)
      = (todo.filter fun x => x.1 == i).foldl (fun a x => combine a x.2) (m.half .hmem (base + i)) := by
  induction todo generalizing m with
  | nil => rfl
  | cons x rest ih =>
    obtain ⟨k, v⟩ := x
    rw [combineAll, ih]
    by_cases hk : k = i
    · subst hk
      simp
    · rw [half_combineAt_other _ _ _ _ (by omega)]
      simp [hk]

/-- One accumulator after DM's memory effect (R136, R138). -/
theorem half_dmMemory (c : Config) (p : Params) (m : Memory) (i : Nat) :
    (dmMemory c p m).half .hmem (p.harqN + i)
      = combineHits (m.half .hmem (p.harqN + i)) (fun j => m.half .lmem j) (hits c p i) := by
  rw [dmMemory, half_combineAll, combineList, selPrefix_eq_map, List.zip_map', List.filter_map, List.foldl_map]
  rfl

/-- One accumulator after DM.cf's memory effect (R139): as DM's from 0. -/
theorem half_dmCfMemory (c : Config) (p : Params) (m : Memory) {i : Nat} (h : i < selNcb p) :
    (dmCfMemory c p m).half .hmem (p.harqN + i) = combineHits 0 (fun j => (clearHarq p m).half .lmem j) (hits c p i) := by
  rw [dmCfMemory, half_dmMemory, clearHarq, Memory.half_putHalves_same _ _ _ _ _ rfl (by simpa using h)]
  congr 1
  simp [h]

/-- An element of a memory lies outside the elements of another (R66, R70). -/
theorem MemId.range_has_other {c : Config} (hc : c.Valid) {x y : MemId} (hxy : x ≠ y) {lo n i d : Nat} (h : lo + n ≤ x.elems c) (hi : i < y.elems c)
    (hd : d < y.esz) : (x.range lo n).has (y.addr i + d) = false := by
  cases hb : (x.range lo n).has (y.addr i + d) with
  | false => rfl
  | true =>
    have h1 := MemId.range_mapped h hb
    have h2 : y.start ≤ y.addr i + d ∧ y.addr i + d < y.start + y.bytes c := by
      have := Nat.mul_le_mul_left y.esz (Nat.succ_le_of_lt hi)
      rw [Nat.succ_eq_add_one, Nat.mul_add] at this
      simp only [MemId.addr, MemId.bytes]
      omega
    have := MemId.apart hc hxy
    omega

/-- What stores in ranges of other memories leaves an element alone. -/
theorem StoresIn.half_other {f : Memory → Memory} {rs : List Range} (hf : StoresIn f rs) (m : Memory) {x : MemId}
    {i : Nat} (h0 : anyHas rs (x.addr i) = false) (h1 : anyHas rs (x.addr i + 1) = false) :
    (f m).half x i = m.half x i := by
  simp only [Memory.half, Memory.readHalf]
  rw [hf.outside _ _ h0, hf.outside _ _ h1]

theorem StoresIn.clearHarq (p : Params) : StoresIn (clearHarq p) [MemId.hmem.range p.harqN (selNcb p)] :=
  StoresIn.putHalves (x := .hmem) (i := p.harqN) (vs := fun _ => List.replicate (selNcb p) 0) rfl (by simp)

/-- What stores in the HARQ buffer leaves the LLR buffer alone. -/
theorem StoresIn.lmem_of_hmem {c : Config} (hc : c.Valid) {f : Memory → Memory} {lo n : Nat} (hf : StoresIn f [MemId.hmem.range lo n])
    (h : lo + n ≤ c.hSize) (m : Memory) {j : Nat} (hj : j < c.eMax) : (f m).half .lmem j = m.half .lmem j := by
  have h' : lo + n ≤ MemId.hmem.elems c := by simp only [MemId.elems]; omega
  have hj' : j < MemId.lmem.elems c := by simp only [MemId.elems]; omega
  have key : ∀ d, d < 2 → (MemId.hmem.range lo n).has (MemId.lmem.addr j + d) = false := fun d hd =>
    MemId.range_has_other hc (by decide) h' hj' (by simpa only [MemId.esz] using hd)
  refine hf.half_other m ?_ ?_
  · rw [anyHas_singleton]
    simpa only [Nat.add_zero] using key 0 (by omega)
  · rw [anyHas_singleton]
    exact key 1 (by omega)

theorem combineHits_eq_foldl (acc : Half) (llr : Nat → Half) (js : List Nat) :
    combineHits acc llr js = (js.map llr).foldl combine acc := by
  rw [List.foldl_map, combineHits]

theorem combineHits_congr (acc : Half) {f g : Nat → Half} {js : List Nat} (h : ∀ j ∈ js, f j = g j) :
    combineHits acc f js = combineHits acc g js := by
  rw [combineHits_eq_foldl, combineHits_eq_foldl, List.map_congr_left h]

theorem mem_hits {c : Config} {p : Params} {i j : Nat} : j ∈ hits c p i ↔ j < p.eN ∧ sel c p j = i := by
  simp [hits]

/-- A table written row by row: entry `i * n + q` is `f i q`. -/
theorem getD_rows (f : Nat → Nat → Nat) {l n i q : Nat} (hi : i < l) (hq : q < n) :
    ((List.range l).flatMap fun i => (List.range n).map (f i)).getD (i * n + q) 0 = f i q := by
  induction l with
  | zero => omega
  | succ l ih =>
    have hlen : ((List.range l).flatMap fun i => (List.range n).map (f i)).length = l * n := by
      simp [List.length_flatMap]
    rw [List.range_succ, List.flatMap_append]
    by_cases h : i < l
    · have : i * n + q < l * n := by
        have := Nat.mul_le_mul_right n (Nat.succ_le_of_lt h)
        rw [Nat.succ_mul] at this
        omega
      rw [List.getD_append _ _ _ _ (by omega)]
      exact ih h
    · obtain rfl : i = l := by omega
      rw [List.getD_append_right _ _ _ _ (by omega), hlen]
      simp [hq]

/-- Entry `i * Qm + q` of the interleaver's index list (R150). -/
theorem interleaveIndices_getD {l qm i q : Nat} (hi : i < l) (hq : q < qm) :
    (interleaveIndices l qm).getD (i * qm + q) 0 = q * l + i :=
  getD_rows (fun i q => q * l + i) hi hq

/-- Entry `q * L + i` of the de-interleaver's index list (R150). -/
theorem deinterleaveIndices_getD {l qm i q : Nat} (hi : i < l) (hq : q < qm) :
    (deinterleaveIndices l qm).getD (q * l + i) 0 = i * qm + q :=
  getD_rows (fun q i => i * qm + q) hq hi

theorem row_lt {l n i q : Nat} (hi : i < l) (hq : q < n) : i * n + q < l * n := by
  have := Nat.mul_le_mul_right n (Nat.succ_le_of_lt hi)
  rw [Nat.succ_mul] at this
  omega

/-- One bit after IL's memory effect (R151). -/
theorem bit_ilMemory (p : Params) (m : Memory) {i q : Nat} (hi : i < p.eN / p.qmN) (hq : q < p.qmN) :
    (ilMemory p m).bit .omem (p.outN + (i * p.qmN + q)) = m.bit .emem (q * (p.eN / p.qmN) + i) := by
  have hlt := row_lt hi hq
  rw [ilMemory, Memory.bit_putBits_same _ _ _ _ _ rfl (by simpa using hlt)]
  have h := interleaveIndices_getD hi hq
  rw [List.getD_eq_getElem _ _ (by simpa using hlt)] at h ⊢
  rw [List.getElem_map, h]

/-- One LLR after DIL's memory effect (R153). -/
theorem half_dilMemory (p : Params) (m : Memory) {i q : Nat} (hi : i < p.eN / p.qmN) (hq : q < p.qmN) :
    (dilMemory p m).half .lmem (q * (p.eN / p.qmN) + i) = m.half .rmem (p.rxN + (i * p.qmN + q)) := by
  have hlt := row_lt hq hi
  have hput := Memory.half_putHalves_same m .lmem 0 (q * (p.eN / p.qmN) + i)
    ((deinterleaveIndices (p.eN / p.qmN) p.qmN).map fun k => m.half .rmem (p.rxN + k)) rfl (by simpa using hlt)
  rw [Nat.zero_add] at hput
  rw [dilMemory, hput]
  have h := deinterleaveIndices_getD hi hq
  rw [List.getD_eq_getElem _ _ (by simpa using hlt)] at h ⊢
  rw [List.getElem_map, h]

/-- One bit after RM's memory effect (R126). -/
theorem bit_rmMemory (c : Config) (p : Params) (m : Memory) {j : Nat} (hj : j < p.eN) :
    (rmMemory c p m).bit .emem j = m.bit .dmem (sel c p j) := by
  have hput := Memory.bit_putBits_same m .emem 0 j ((selPrefix c p p.eN).map fun i => m.bit .dmem i) rfl
    (by simpa using hj)
  rw [Nat.zero_add] at hput
  rw [rmMemory, hput, selPrefix_eq_map]
  simp [hj]
end Sys2Proof.Machine
end

