-- ==== Sys2Proof/Laws/PerInstr.lean ====
section
/-! SUPPORT. The family Encoding: for each command, its fields are legal, its word decodes to it, and its word is one of
the opcode table's (spec/30_encoding.md R86, R90 to R92). -/

namespace Sys2Proof.Laws.Encoding

/-- Each command is well formed, its word holds its fields, and the word decodes to the command. -/
def Statement (i : Instr) : Prop :=
  i.WellFormed ∧ fieldsOf (encode i) = i.fields ∧ decode (encode i) = .cmd i

theorem nop : Statement .nop := by unfold Statement; decide
theorem select : Statement .select := by unfold Statement; decide
theorem markf : Statement .markf := by unfold Statement; decide
theorem rm : Statement .rm := by unfold Statement; decide
theorem rmSkip : Statement .rmSkip := by unfold Statement; decide
theorem dm : Statement .dm := by unfold Statement; decide
theorem dmCf : Statement .dmCf := by unfold Statement; decide
theorem dmSkip : Statement .dmSkip := by unfold Statement; decide
theorem il : Statement .il := by unfold Statement; decide
theorem ilSkip : Statement .ilSkip := by unfold Statement; decide
theorem dil : Statement .dil := by unfold Statement; decide
theorem dilSkip : Statement .dilSkip := by unfold Statement; decide
theorem rmil : Statement .rmil := by unfold Statement; decide
theorem rmilSkip : Statement .rmilSkip := by unfold Statement; decide
theorem dildm : Statement .dildm := by unfold Statement; decide
theorem dildmCf : Statement .dildmCf := by unfold Statement; decide
theorem dildmSkip : Statement .dildmSkip := by unfold Statement; decide
theorem clrerr : Statement .clrerr := by unfold Statement; decide

end Sys2Proof.Laws.Encoding
end

