-- ==== Sys2Proof/Machine/Platform.lean ====
section
/-! DEFINITION. The platform around the block, by the platform parameters of spec/00_scope.md R8: which of its bus accesses
and reset signals are inputs of the block, and where the interrupt output goes (spec/20_memory.md R70, R79,
spec/60_exceptions.md R205, spec/70_reset_and_hazards.md R230). -/

namespace Sys2Proof.Machine

/-- What the platform does. -/
inductive PlatformEvent where
  /-- A bus master reads at a platform address. -/
  | read (master addr size : Nat)
  /-- A bus master writes at a platform address. -/
  | write (master addr size : Nat) (v : Word)
  /-- A reset signal is raised. -/
  | reset (signal : Nat)
deriving DecidableEq, Repr

/-- The byte offset from BASE that a platform address names, if it lies in the 16 MiB window (R70). -/
def windowOffset (c : Config) (addr : Nat) : Option Nat :=
  if c.base ≤ addr ∧ addr < c.base + 0x1000000 then some (addr - c.base) else none

/-- The window offset at which this master's access reaches the block (R8: BASE, WINDOW_PROTECTION). -/
def reaches (c : Config) (master addr : Nat) : Option Nat :=
  if master ∈ c.windowProtection then none else windowOffset c addr

/-- The block's input that a platform event is, if it is one: the events, in their order, are its inputs (R79,
BUS_ORDERING). -/
def PlatformEvent.input (c : Config) : PlatformEvent → Option Input
  | .read master addr size => (reaches c master addr).map fun a => .read a size
  | .write master addr size v => (reaches c master addr).map fun a => .write a size v
  | .reset signal => if signal = c.resetSignal then some .hwReset else none

/-- The level of a platform interrupt line, as far as the block drives it (R205, IRQ_LINE). -/
def State.irqOn (s : State) (line : Nat) : Bool := line == s.cfg.irqLine && s.irq

end Sys2Proof.Machine
end

