-- ==== Sys2Proof/Tests/Slice0.lean ====
section
/-! SUPPORT. The model's own tests: the checks of WellFormed, words written out from the encoding, single steps with the
values of spec/95_test_vectors.md, and one witness for each statement that has hypotheses. -/

open Sys2Proof Sys2Proof.Machine

namespace Sys2Proof.Tests

/- One theorem after the other: elaborated all at once, each takes a thread with a stack of its own. -/
set_option Elab.async false

/-! ### Ill-formed field combinations (R91): one per check, each refused -/

theorem test_wf_rsv_op : ¬(Fields.WellFormed { op := 0xA, rsva := 0, cf := false, skip := false, rsvb := 0 }) := by decide
theorem test_wf_rsv_bits_low : ¬(Fields.WellFormed { op := 0x0, rsva := 1, cf := false, skip := false, rsvb := 0 }) := by
  decide
theorem test_wf_rsv_bits_high : ¬(Fields.WellFormed { op := 0x9, rsva := 0, cf := false, skip := false, rsvb := 1 }) := by
  decide
theorem test_wf_bad_cf : ¬(Fields.WellFormed { op := 0x3, rsva := 0, cf := true, skip := false, rsvb := 0 }) := by decide
theorem test_wf_bad_skip : ¬(Fields.WellFormed { op := 0x1, rsva := 0, cf := false, skip := true, rsvb := 0 }) := by
  decide
theorem test_wf_cf_skip : ¬(Fields.WellFormed { op := 0x8, rsva := 0, cf := true, skip := true, rsvb := 0 }) := by decide
theorem test_wf_legal : Fields.WellFormed { op := 0x8, rsva := 0, cf := true, skip := false, rsvb := 0 } := by decide

/-! ### Words written out field by field from R86: bits 31:10, SKIP (9), CF (8), bits 7:4, OP (3:0) -/

/-- A word from its fields, the highest bits first (R86). -/
def bits (rsvb : BitVec 22) (skip cf : BitVec 1) (rsva op : BitVec 4) : Word :=
  (rsvb ++ skip ++ cf ++ rsva ++ op).setWidth 32

theorem test_decode_nop : decode (bits 0 0b0 0b0 0b0000 0b0000) = .cmd .nop := by decide
theorem test_decode_select : decode (bits 0 0b0 0b0 0b0000 0b0001) = .cmd .select := by decide
theorem test_decode_markf : decode (bits 0 0b0 0b0 0b0000 0b0010) = .cmd .markf := by decide
theorem test_decode_rm : decode (bits 0 0b0 0b0 0b0000 0b0011) = .cmd .rm := by decide
theorem test_decode_rm_skip : decode (bits 0 0b1 0b0 0b0000 0b0011) = .cmd .rmSkip := by decide
theorem test_decode_dm : decode (bits 0 0b0 0b0 0b0000 0b0100) = .cmd .dm := by decide
theorem test_decode_dm_cf : decode (bits 0 0b0 0b1 0b0000 0b0100) = .cmd .dmCf := by decide
theorem test_decode_dm_skip : decode (bits 0 0b1 0b0 0b0000 0b0100) = .cmd .dmSkip := by decide
theorem test_decode_il : decode (bits 0 0b0 0b0 0b0000 0b0101) = .cmd .il := by decide
theorem test_decode_il_skip : decode (bits 0 0b1 0b0 0b0000 0b0101) = .cmd .ilSkip := by decide
theorem test_decode_dil : decode (bits 0 0b0 0b0 0b0000 0b0110) = .cmd .dil := by decide
theorem test_decode_dil_skip : decode (bits 0 0b1 0b0 0b0000 0b0110) = .cmd .dilSkip := by decide
theorem test_decode_rmil : decode (bits 0 0b0 0b0 0b0000 0b0111) = .cmd .rmil := by decide
theorem test_decode_rmil_skip : decode (bits 0 0b1 0b0 0b0000 0b0111) = .cmd .rmilSkip := by decide
theorem test_decode_dildm : decode (bits 0 0b0 0b0 0b0000 0b1000) = .cmd .dildm := by decide
theorem test_decode_dildm_cf : decode (bits 0 0b0 0b1 0b0000 0b1000) = .cmd .dildmCf := by decide
theorem test_decode_dildm_skip : decode (bits 0 0b1 0b0 0b0000 0b1000) = .cmd .dildmSkip := by decide
theorem test_decode_clrerr : decode (bits 0 0b0 0b0 0b0000 0b1001) = .cmd .clrerr := by decide

/-- The illegal words of spec/95_test_vectors.md section 2.8. -/
theorem test_decode_illegal :
    [0x0000000A, 0x0000000F, 0x0000031A].map decode = List.replicate 3 (.illegal .rsvOp)
    ∧ [0x00000010, 0x00000215, 0x00000400, 0x80000000].map decode = List.replicate 4 (.illegal .rsvBits)
    ∧ [0x00000103, 0x00000100, 0x00000200, 0x00000201].map decode = List.replicate 4 (.illegal .badFlag)
    ∧ [0x00000304, 0x00000308].map decode = List.replicate 2 (.illegal .cfSkip) := by decide

theorem test_decodeTableWord : decodeTableWord 32 0x108 = some .dildmCf ∧ decodeTableWord 32 0x308 = none := by decide

/-! ### States and what is read from them -/

/-- Parameters: BG, Z, C, TBSLBRM, RV, FOFF, F, E, QM; offsets 0, SENTINEL 2. -/
def par (bg z c tbs rv foff f e qm : Word) : Params :=
  { Params.reset Config.default with bg := bg, z := z, c := c, tbslbrm := tbs, rv := rv, foff := foff, f := f, e := e, qm := qm }

/-- Memory with bytes listed from a window offset on. -/
def memBits (x : MemId) (vs : List Byte) : Memory := (Memory.fresh 0).putBits x 0 vs

/-- Memory with 16-bit elements listed from element 0 on. -/
def memHalves (x : MemId) (vs : List Int) : Memory := (Memory.fresh 0).putHalves x 0 (vs.map (BitVec.ofInt 16))

/-- A command word in flight with these parameters and this memory, its completion due. -/
def inFlight (w : Word) (p : Params) (m : Memory) : State :=
  { State.reset with busy := true, cmd := w, params := p, snap := p, mem := m }

/-- What a step leaves, if it answers a next state. -/
def after {α : Type} (f : State → α) : Host.Outcome State Fault Refusal → Option α
  | .next t => some (f t)
  | .fault _ => none
  | .refused _ => none

/-- Byte elements `[0, n)`. -/
def bitsOf (x : MemId) (n : Nat) (t : State) : List Byte := (List.range n).map fun i => t.mem.bit x i

/-- 16-bit elements `[lo, lo + n)`, signed. -/
def halvesOf (x : MemId) (lo n : Nat) (t : State) : List Int := (List.range n).map fun i => (t.mem.half x (lo + i)).toInt

/-- STATUS, ERRCODE, ERRCMD. -/
def errorOf (t : State) : Word × Half × Word := (t.statusWord, t.errcode, t.errcmd)

/-- K0RAW, K0, NCB, USABLE, OUTLEN. -/
def resultsOf (t : State) : List Word := [t.k0raw, t.k0, t.ncb, t.usable, t.outlen]

/-! ### The parameters of R8 and the platform -/

theorem test_default_valid : Config.default.Valid := by constructor <;> decide

/-- A block built smaller, at BASE 0x40000000, with master 7 kept out. -/
def small : Config :=
  { Config.default with
    zMax := 2, dSize := 132, eMax := 16, gMax := 64, hSize := 132, base := 0x40000000, irqLine := 5, resetSignal := 3,
    windowProtection := [7] }

theorem test_small_valid : small.Valid := by constructor <;> decide

/-- E_MAX bounds E, and CAP_EMAX reports it (R46, R196). -/
theorem test_small_block :
    (validate small .rm (par 2 1 1 11 0 0 0 17 2)).map Reason.code = some 0x010A
    ∧ validate small .rm (par 2 1 1 11 0 0 0 16 2) = none
    ∧ after State.resp (hostRead (State.initial small) 0x084 4) = some (.data 16) := by decide

/-- The platform's events at the ends of the window (R8, R70), and the interrupt line (R205). -/
theorem test_platform :
    [PlatformEvent.read 1 0x40000008 4, .write 1 0x40FFFFFF 1 9, .read 1 0x3FFFFFFF 1, .read 1 0x41000000 4,
      .read 7 0x40000008 4, .reset 3, .reset 4].map (PlatformEvent.input small)
    = [some (.read 0x008 4), some (.write 0xFFFFFF 1 9), none, none, none, some .hwReset, none]
    ∧ [4, 5].map ({ State.initial small with irqEn := true, done := true }).irqOn = [false, true] := by decide

/-- The width parameters are the element sizes of R70. -/
theorem test_widths : ∀ x ∈ MemId.all, x.width Config.default = 8 * x.esz := by decide

/-! ### The selector (section 2.1: N, NCB, K0RAW, K0, USABLE) -/

def selVals (p : Params) : List Nat := [selN p, selNcb p, selK0raw Config.default p, selK0 Config.default p, selU p]

theorem test_selector_s1_s7 :
    [par 2 8 1 0 0 0 0 20 0, par 2 8 1 0 1 0 0 20 0, par 2 8 1 0 2 0 0 20 0, par 2 8 1 0 3 0 0 20 0,
     par 1 2 1 0 1 0 0 20 0, par 1 2 1 0 2 0 0 20 0, par 1 2 1 0 3 0 0 20 0].map selVals
    = [[400, 400, 0, 0, 400], [400, 400, 104, 104, 400], [400, 400, 200, 200, 400], [400, 400, 344, 344, 400],
       [132, 132, 34, 34, 132], [132, 132, 66, 66, 132], [132, 132, 112, 112, 132]] := by decide

theorem test_selector_s8_s16 :
    [par 1 384 1 0 1 0 0 20 0, par 1 384 1 0 2 0 0 20 0, par 1 384 1 0 3 0 0 20 0, par 2 384 1 0 3 0 0 20 0,
     par 1 384 2 10000 0 0 0 20 0, par 1 384 2 10000 1 0 0 20 0, par 1 384 2 10000 2 0 0 20 0,
     par 1 384 2 10000 3 0 0 20 0, par 1 384 1 0xFFFFFFFF 3 0 0 20 0].map selVals
    = [[25344, 25344, 6528, 6528, 25344], [25344, 25344, 12672, 12672, 25344], [25344, 25344, 21504, 21504, 25344],
       [19200, 19200, 16512, 16512, 19200], [25344, 7500, 0, 0, 7500], [25344, 7500, 1920, 1920, 7500],
       [25344, 7500, 3456, 3456, 7500], [25344, 7500, 6144, 6144, 7500], [25344, 25344, 21504, 21504, 25344]] := by
  decide

theorem test_selector_s17_s21 :
    [par 2 8 1 0 1 100 10 200 0, par 2 8 1 0 1 104 1 200 0, par 2 8 1 0 1 103 1 200 0, par 2 8 1 0 1 105 1 200 0,
     par 2 8 1 0 1 104 0 200 0].map selVals
    = [[400, 400, 104, 110, 390], [400, 400, 104, 105, 399], [400, 400, 104, 104, 399], [400, 400, 104, 104, 399],
       [400, 400, 104, 104, 400]] := by decide

theorem test_selector_s22_s28 :
    [par 2 1 1 11 0 0 4 20 0, par 2 1 1 11 0 4 4 20 0, par 2 1 1 11 1 0 4 20 0, par 2 1 1 11 2 12 8 20 0,
     par 2 1 1 11 3 8 8 20 0, par 1 1 1 1 0 0 0 20 0, par 2 1 1 10 1 0 0 20 0].map selVals
    = [[50, 16, 0, 4, 12], [50, 16, 0, 0, 12], [50, 16, 4, 4, 12], [50, 16, 8, 8, 12], [50, 16, 13, 0, 8],
       [66, 1, 0, 0, 1], [50, 15, 3, 3, 15]] := by decide

/-- Section 2.2, M3 to M6, M10, M11. -/
theorem test_selection_sequences :
    selPrefix Config.default (par 2 1 1 11 0 4 4 20 0) 20 = [0, 1, 2, 3, 8, 9, 10, 11, 12, 13, 14, 15, 0, 1, 2, 3, 8, 9, 10, 11]
    ∧ selPrefix Config.default (par 2 1 1 11 2 12 8 14 0) 14 = [8, 9, 10, 11, 0, 1, 2, 3, 4, 5, 6, 7, 8, 9]
    ∧ selPrefix Config.default (par 2 1 1 11 3 8 8 10 0) 10 = [0, 1, 2, 3, 4, 5, 6, 7, 0, 1]
    ∧ selPrefix Config.default (par 2 1 1 10 1 5 2 15 0) 15 = [3, 4, 7, 8, 9, 10, 11, 12, 13, 14, 0, 1, 2, 3, 4]
    ∧ selPrefix Config.default (par 2 1 1 11 3 0 0 6 0) 6 = [13, 14, 15, 0, 1, 2]
    ∧ selPrefix Config.default (par 2 1 1 11 0 14 8 14 0) 14 = [0, 1, 2, 3, 4, 5, 6, 7, 8, 9, 10, 11, 12, 13] := by decide +kernel

/-! ### One step per command -/

/-- R115's example, S17 with E = 200. -/
theorem test_select_step :
    after (fun t => (resultsOf t, t.statusWord)) (step (inFlight 0x001 (par 2 8 1 0 1 100 10 200 0) (Memory.fresh 0)))
    = some ([104, 110, 400, 390, 0], 0x2) := by decide

/-- M3 with DMEM[i] = i. -/
theorem test_rm_step :
    after (fun t => (bitsOf .emem 20 t, resultsOf t))
      (step (inFlight 0x003 (par 2 1 1 11 0 4 4 20 0)
        (memBits .dmem [0, 1, 2, 3, 4, 5, 6, 7, 8, 9, 10, 11, 12, 13, 14, 15])))
    = some ([0, 1, 2, 3, 8, 9, 10, 11, 12, 13, 14, 15, 0, 1, 2, 3, 8, 9, 10, 11], [0, 0, 16, 12, 20]) := by decide +kernel

/-- M12: SKIP with parameters no command accepts. -/
theorem test_rm_skip_step :
    after (fun t => (t.outlen, t.statusWord, t.mem)) (step (inFlight 0x203 (par 7 8 1 0 0 9 4 0 0) (Memory.fresh 0)))
    = some (0, 0x2, Memory.fresh 0) := by decide

/-- DM-7: the order of the additions under saturation. -/
theorem test_dm_step :
    after (halvesOf .hmem 0 1)
      (step (inFlight 0x004 (par 2 1 1 11 0 0 0 17 0)
        ((memHalves .lmem [1000, 0, 0, 0, 0, 0, 0, 0, 0, 0, 0, 0, 0, 0, 0, 0, -1000]).putHalves .hmem 0
          (32000 :: List.replicate 15 0))))
    = some [31767] := by decide +kernel

/-- DM-8: without CF the filler and the unselected elements keep their values. -/
theorem test_dm_keeps_step :
    after (halvesOf .hmem 0 20)
      (step (inFlight 0x004 (par 2 1 1 11 0 4 4 4 0)
        ((memHalves .lmem [1, 1, 1, 1]).putHalves .hmem 0 (List.replicate 20 7))))
    = some [8, 8, 8, 8, 7, 7, 7, 7, 7, 7, 7, 7, 7, 7, 7, 7, 7, 7, 7, 7] := by decide +kernel

/-- DM-1, HMEM holding whatever reset left. -/
theorem test_dm_cf_step :
    after (fun t => (halvesOf .hmem 0 16 t, resultsOf t))
      (step (inFlight 0x104 (par 2 1 1 11 0 4 4 20 0)
        (memHalves .lmem [1, 2, 3, 4, 5, 6, 7, 8, 9, 10, 11, 12, 13, 14, 15, 16, 17, 18, 19, 20])))
    = some ([14, 16, 18, 20, 0, 0, 0, 0, 22, 24, 26, 28, 9, 10, 11, 12], [0, 0, 16, 12, 20]) := by decide +kernel

/-- DM-9: CF clears [0, Ncb), the filler included, and nothing outside. -/
theorem test_dm_cf_clears_step :
    after (halvesOf .hmem 0 20)
      (step (inFlight 0x104 (par 2 1 1 11 0 4 4 4 0)
        ((memHalves .lmem [1, 1, 1, 1]).putHalves .hmem 0 (List.replicate 20 7))))
    = some [1, 1, 1, 1, 0, 0, 0, 0, 0, 0, 0, 0, 0, 0, 0, 0, 7, 7, 7, 7] := by decide +kernel

/-- Saturation at both ends and the most negative value (DM-4 to DM-6). -/
theorem test_combine : combine 30000 30000 = 32767 ∧ combine (-30000) (-30000) = -32768
    ∧ combine (-32768) (-32768) = -32768 ∧ combine (-32768) 32767 = -1 := by decide

/-- I1, Scenario D. -/
theorem test_il_step :
    after (fun t => (bitsOf .omem 8 t, t.outlen))
      (step (inFlight 0x005 (par 0 0 0 0 0 0 0 8 4) (memBits .emem [1, 0, 1, 1, 0, 0, 1, 0])))
    = some ([1, 1, 0, 1, 0, 1, 0, 0], 8) := by decide +kernel

/-- I2. -/
theorem test_dil_step :
    after (fun t => (halvesOf .lmem 0 6 t, t.outlen))
      (step (inFlight 0x006 (par 0 0 0 0 0 0 0 6 2) (memHalves .rmem [10, -20, 30, -40, 50, -60])))
    = some ([10, 30, 50, -20, -40, -60], 6) := by decide +kernel

/-- Section 2.3, the index maps for Qm = 4 and Qm = 6. -/
theorem test_index_maps :
    interleaveIndices 3 4 = [0, 3, 6, 9, 1, 4, 7, 10, 2, 5, 8, 11]
    ∧ deinterleaveIndices 3 4 = [0, 4, 8, 1, 5, 9, 2, 6, 10, 3, 7, 11]
    ∧ interleaveIndices 3 6 = [0, 3, 6, 9, 12, 15, 1, 4, 7, 10, 13, 16, 2, 5, 8, 11, 14, 17]
    ∧ deinterleaveIndices 3 6 = [0, 6, 12, 1, 7, 13, 2, 8, 14, 3, 9, 15, 4, 10, 16, 5, 11, 17] := by decide

/-- F1. -/
theorem test_markf_step :
    after (fun t => (bitsOf .dmem 15 t, t.outlen))
      (step (inFlight 0x002 (par 2 8 0 0 0 10 4 0 0) (memBits .dmem (List.replicate 15 0))))
    = some ([0, 0, 0, 0, 0, 0, 0, 0, 0, 0, 2, 2, 2, 2, 0], 4) := by decide +kernel

/-- F2 and F4: F = 0 writes nothing; one element past N is rejected. -/
theorem test_markf_bounds :
    after (fun t => (t.mem, t.outlen, t.statusWord)) (step (inFlight 0x002 (par 2 1 0 0 0 50 0 0 0) (Memory.fresh 0)))
      = some (Memory.fresh 0, 0, 0x2)
    ∧ after (fun t => (t.mem, errorOf t)) (step (inFlight 0x002 (par 2 1 0 0 0 40 11 0 0) (Memory.fresh 0)))
      = some (Memory.fresh 0, 0x6, 0x010B, 0x002) := by decide

/-- Program 3.1's RMIL. -/
theorem test_rmil_step :
    after (fun t => (bitsOf .emem 12 t, bitsOf .omem 12 t, resultsOf t))
      (step (inFlight 0x007 (par 2 1 1 11 2 12 4 12 4)
        (memBits .dmem [1, 0, 0, 1, 1, 1, 0, 1, 0, 1, 1, 0, 2, 2, 2, 2])))
    = some ([0, 1, 1, 0, 1, 0, 0, 1, 1, 1, 0, 1], [0, 0, 0, 1, 1, 1, 1, 0, 1, 0, 1, 1], [8, 8, 16, 12, 12]) := by
  decide +kernel

/-- C2: R170's example, on a zero buffer. -/
theorem test_dildm_step :
    after (fun t => (halvesOf .lmem 0 4 t, halvesOf .hmem 0 16 t))
      (step (inFlight 0x008 (par 2 1 1 11 0 0 0 4 2)
        ((memHalves .rmem [5, 7, 6, 8]).putHalves .hmem 0 (List.replicate 16 0))))
    = some ([5, 6, 7, 8], [5, 6, 7, 8, 0, 0, 0, 0, 0, 0, 0, 0, 0, 0, 0, 0]) := by decide +kernel

/-- Program 3.2's DILDM.cf. -/
theorem test_dildm_cf_step :
    after (halvesOf .hmem 32 16)
      (step (inFlight 0x108 ({ par 2 1 1 11 0 4 4 16 2 with harqBase := 32 })
        (memHalves .rmem [100, -200, 300, -400, 500, -600, 700, -800, 900, -1000, 1100, -1200, 1300, -1400, 1500, -1600])))
    = some [-900, -900, -900, -900, 0, 0, 0, 0, 900, 1100, 1300, 1500, -200, -400, -600, -800] := by decide +kernel

/-- I7 and C8: the other SKIP words check nothing. -/
theorem test_skip_steps :
    [0x204, 0x205, 0x206, 0x207, 0x208].map (fun w =>
      after (fun t => (t.outlen, t.statusWord, t.mem)) (step (inFlight w (par 9 0 0 0 9 9 0 0 3) (Memory.fresh 0))))
    = List.replicate 5 (some (0, 0x2, Memory.fresh 0)) := by decide

/-- K1 and K2. -/
theorem test_nop_step :
    after errorOf (step (inFlight 0x000 (Params.reset Config.default) (Memory.fresh 0))) = some (0x2, 0, 0)
    ∧ after errorOf (step { inFlight 0x000 (Params.reset Config.default) (Memory.fresh 0) with err := true, errcode := 0x0104, errcmd := 1 })
      = some (0x6, 0x0104, 1) := by decide

/-- K3. -/
theorem test_clrerr_step :
    after errorOf (step { inFlight 0x009 (Params.reset Config.default) (Memory.fresh 0) with
      err := true, ovr := true, errcode := 0x0200, errcmd := 5 }) = some (0x2, 0, 0) := by decide

/-- A rejected word (section 2.8). -/
theorem test_illegal_step :
    after errorOf (step (inFlight 0x31A (Params.reset Config.default) (Memory.fresh 0))) = some (0x6, 0x0301, 0x31A) := by decide

/-! ### Section 2.9: what each check answers -/

def base : Params := par 2 1 1 11 0 0 0 4 2

theorem test_checks_select :
    [{ base with bg := 3 }, { base with z := 0 }, { base with z := 385 }, { base with rv := 4 }, { base with c := 0 },
     { base with e := 0 }, { base with foff := 5 }, { base with foff := 17, e := 20 }, { base with foff := 16, e := 20 },
     { base with f := 16 }, { base with f := 20 }].map (fun p => (validate Config.default .select p).map Reason.code)
    = [some 0x0104, some 0x0105, some 0x0105, some 0x0106, some 0x0101, some 0x0107, some 0x0102, some 0x0103, none,
       some 0x0109, some 0x0109] := by decide

theorem test_checks_buffers :
    [(Instr.rm, { base with e := 65537 }), (.rm, { base with e := 65536 }), (.dm, { base with harqBase := 405489 }),
     (.dm, { base with harqBase := 405488 }), (.il, { base with qm := 5 }), (.il, { base with qm := 4, e := 6 }),
     (.il, { base with qm := 4, e := 0 }), (.il, { base with outOffset := 1048573 }),
     (.dil, { base with rxOffset := 1048573 })].map (fun x => (validate Config.default x.1 x.2).map Reason.code)
    = [some 0x010A, none, some 0x010A, none, some 0x0200, some 0x0108, some 0x0107, some 0x010A, some 0x010A] := by decide

/-- C3 to C7 and F5. -/
theorem test_checks_segment :
    [(Instr.rmil, { base with bg := 3, qm := 5 }), (.rmil, { base with qm := 5, e := 0 }),
     (.rmil, { base with e := 0, foff := 5 }), (.rmil, { base with qm := 4, e := 6, foff := 9 }),
     (.rmil, { base with qm := 4, e := 8, foff := 9 }), (.markf, { base with sentinel := 1 }),
     (.markf, { base with sentinel := 0 })].map (fun x => (validate Config.default x.1 x.2).map Reason.code)
    = [some 0x0104, some 0x0200, some 0x0107, some 0x0108, some 0x0102, some 0x010C, some 0x010C] := by decide

/-! ### Section 2.10: the bus -/

/-- B1. -/
theorem test_bus_constants :
    [0x000, 0x080, 0x084, 0x088, 0x08C].map (fun a => after State.resp (hostRead State.reset a 4))
    = [some (.data 0x524D0001), some (.data 0x180), some (.data 0x10000), some (.data 0x100000), some (.data 0x63000)] := by
  decide

/-- B2, read back. -/
theorem test_bus_halves :
    after State.resp (hostRead { State.reset with mem := memHalves .hmem [-200, 100] } 0x800000 4)
      = some (.data 0x0064FF38)
    ∧ after State.resp (hostRead { State.reset with mem := memHalves .hmem [-200, 100] } 0x800001 1)
      = some (.data 0xFF) := by decide +kernel

/-- B3. -/
theorem test_bus_bits : after (bitsOf .dmem 4) (hostWrite State.reset 0x100000 4 0x00010001) = some [1, 0, 1, 0] := by
  decide +kernel

/-- B4, each with the name of its bus error. -/
theorem test_bus_errors :
    hostRead State.reset 0x800001 2 = .fault (.busMisaligned 0x800001 2)
    ∧ hostRead State.reset 0x000001 4 = .fault (.busMisaligned 0x000001 4)
    ∧ hostRead State.reset 0x018 4 = .fault (.busUnlistedRegister 0x018)
    ∧ hostRead State.reset 0x008 1 = .fault (.busSize 0x008 1)
    ∧ hostRead State.reset 0x106300 1 = .fault (.busUnmapped 0x106300 1) :=
  ⟨rfl, rfl, rfl, rfl, rfl⟩

/-- B5, B6, B7, F6 and K4: registers after one write. -/
theorem test_bus_registers :
    after (fun t => t.readReg .bg) (hostWrite State.reset 0x020 4 0xFFFFFFFF) = some 0xFFFFFFFF
    ∧ after State.statusWord (hostWrite { State.reset with done := true, err := true } 0x008 4 0xFFFFFFFF) = some 0
    ∧ after State.ctrlWord (hostWrite State.reset 0x004 4 0x3) = some 0
    ∧ after (fun t => t.readReg .sentinel) (hostWrite State.reset 0x050 4 0x1234) = some 0x34
    ∧ after errorOf (hostWrite { State.reset with err := true, errcode := 0x0104, errcmd := 1 } 0x008 4 0x4)
      = some (0, 0x0104, 1) := by decide

/-- B8: the interrupt after each of the writes. -/
theorem test_interrupt :
    after State.irq (step { inFlight 0x000 (Params.reset Config.default) (Memory.fresh 0) with irqEn := true }) = some true
    ∧ after State.irq (hostWrite { State.reset with irqEn := true, done := true, err := true } 0x008 4 0x2) = some true
    ∧ after State.irq (hostWrite { State.reset with irqEn := true, err := true } 0x008 4 0x4) = some false := by decide

/-- B9: a word written to a busy block is dropped; one written to an idle block is accepted. -/
theorem test_overrun :
    after (fun t => (t.statusWord, t.cmd)) (hostWrite (inFlight 0x003 base (Memory.fresh 0)) 0x00C 4 0x000)
      = some (0x9, 0x003)
    ∧ after (fun t => (t.statusWord, t.cmd, t.snap)) (hostWrite { State.reset with params := base, done := true } 0x00C 4 0x007)
      = some (0x1, 0x007, base) := by decide

/-- The placed word runs as the next step from reset. -/
theorem test_placed_word : after errorOf (step (State.reset.withFetchWord 32 0x005)) = some (0x6, 0x0200, 0x005) := by
  decide

/-- The lines of a host program (R96): one access each. -/
theorem test_program_lines :
    wh .hmem 0 [-200, 100] = [.write 0x800000 2 0xFF38, .write 0x800002 2 0x0064]
    ∧ cmdWrite .dildmCf = [.write 0x00C 4 0x108] ∧ clrst = [.write 0x008 4 0xE]
    ∧ segTx = [.write 0x00C 4 0x002, .wait, .write 0x00C 4 0x007, .wait] := by decide

/-! ### Witnesses: for each statement with hypotheses, a state and operands that meet them all

The parameters `pAll` are legal for every command: Ncb = 16, filler [4, 8), U = 12 < E = 20, Qm = 4. -/

def pAll : Params := par 2 1 1 11 0 4 4 20 4

/-- RM in flight, its completion due, memory as reset leaves it. -/
def sAll : State := inFlight 0x003 pAll (Memory.fresh 0)

theorem test_legal_pAll (i : Instr) : Legal Config.default i pAll := by
  cases i <;>
    simp only [Legal, RmilLegal, DildmLegal, RmLegal, DmLegal, IlLegal, DilLegal, MarkfLegal, QmLegal, SelectorLegal,
      BgZLegal] <;> decide

theorem test_pAll_accepted (i : Instr) : validate Config.default i pAll = none := by cases i <;> decide

theorem test_witness_DecodeInvertsEncode : decode 0x108 = .cmd .dildmCf := by decide

/-- By the latency, and by the host having nothing left to do. -/
theorem test_witness_StepRunsDecodedCommand :
    (sAll.busy = true ∧ sAll.latency = 0 ∧ decode sAll.cmd = .cmd .rm ∧ Instr.rm.WellFormed)
    ∧ { sAll with latency := 0, inbox := [.wait] }.latency = 0 ∧ { sAll with latency := 3 }.inbox = [] := by decide

theorem test_witness_StepRejectsIllegalWord :
    ∀ x ∈ [((0x00A : Word), Illegal.rsvOp), (0x400, .rsvBits), (0x103, .badFlag), (0x304, .cfSkip)],
      (inFlight x.1 pAll (Memory.fresh 0)).busy = true ∧ (inFlight x.1 pAll (Memory.fresh 0)).latency = 0
      ∧ decode (inFlight x.1 pAll (Memory.fresh 0)).cmd = .illegal x.2 := by decide

/-- Idle, in flight with time left, and idle with nothing to do. -/
theorem test_witness_StepMakesNextAccess :
    ({ State.reset with inbox := [.hwReset] }.busy = false ∧ { State.reset with inbox := [.hwReset] }.inbox = [.hwReset])
    ∧ ({ sAll with latency := 1, inbox := [.wait] }.latency ≠ 0 ∧ { sAll with inbox := [.wait] }.inbox = [.wait])
    ∧ State.reset.busy = false ∧ State.reset.inbox = [] := by decide

theorem test_witness_NopCompletes : State.reset.err = false ∧ State.reset.ovr = false ∧ ∃ t, exec .nop State.reset = .next t :=
  ⟨rfl, rfl, _, rfl⟩

theorem test_witness_SelectComputesSelection : SelectorLegal sAll.cfg sAll.snap := test_legal_pAll .select

/-- A filler region that ends at N. -/
theorem test_witness_MarkfMarksFillerRegion :
    MarkfLegal Config.default { pAll with foff := 40, f := 10 } ∧ sAll.hazard = false ∧ MarkfLegal sAll.cfg sAll.snap := by
  refine ⟨?_, rfl, test_legal_pAll .markf⟩
  simp only [MarkfLegal, BgZLegal]
  decide

theorem test_witness_RmCopiesSelectedElements : RmLegal sAll.cfg sAll.snap ∧ sAll.hazard = false := ⟨test_legal_pAll .rm, rfl⟩

/-- E exceeds U. -/
theorem test_witness_RmRepeatsCyclically :
    RmLegal sAll.cfg sAll.snap ∧ sAll.hazard = false ∧ selU sAll.snap < sAll.snap.eN ∧ ∃ t, exec .rm sAll = .next t :=
  ⟨test_legal_pAll .rm, rfl, by decide, _, exec_accepted (test_pAll_accepted .rm)⟩

/-- DMEM holds 0 but for the sentinel 2 in the filler region. -/
def sMarked : State := inFlight 0x003 pAll (memBits .dmem [0, 0, 0, 0, 2, 2, 2, 2, 0, 0, 0, 0, 0, 0, 0, 0])

theorem test_witness_RmOutputHasNoFillerValue :
    RmLegal sMarked.cfg sMarked.snap ∧ sMarked.hazard = false ∧ (∃ t, exec .rm sMarked = .next t)
    ∧ ∀ i < selNcb sMarked.snap, ¬(sMarked.snap.foffN ≤ i ∧ i < sMarked.snap.foffN + sMarked.snap.fN) →
        sMarked.mem.bit .dmem i ≠ 2 :=
  ⟨test_legal_pAll .rm, rfl, ⟨_, exec_accepted (test_pAll_accepted .rm)⟩, by decide +kernel⟩

theorem test_witness_DmCombinesInOrder : DmLegal sAll.cfg sAll.snap ∧ sAll.hazard = false := ⟨test_legal_pAll .dm, rfl⟩

/-- With a filler index inside the buffer. -/
theorem test_witness_DmCfClearsThenCombines :
    sAll.cfg.Valid ∧ DmLegal sAll.cfg sAll.snap ∧ sAll.hazard = false ∧ 7 < selNcb sAll.snap ∧ sAll.snap.foffN ≤ 7
      ∧ 7 < sAll.snap.foffN + sAll.snap.fN := ⟨test_default_valid, test_legal_pAll .dmCf, rfl, by decide⟩

/-- Sums that reach both ends of the range, in two orders. -/
theorem test_witness_OrderMattersOnlyUnderSaturation :
    let llr : Nat → Half := fun j => if j = 0 then 1 else -1
    [0, 1].Perm [1, 0] ∧ NoSaturation (0x7FFE : Half).toInt llr [0, 1] ∧ NoSaturation (0x7FFE : Half).toInt llr [1, 0] := by
  refine ⟨by decide, ?_, ?_⟩ <;>
  · intro k hk
    have : k = 0 ∨ k = 1 ∨ k = 2 := by simp at hk; omega
    rcases this with rfl | rfl | rfl <;> decide

/-- All LLRs zero, accumulator 0 hit twice. -/
def sZero : State := inFlight 0x104 pAll (memHalves .lmem (List.replicate 20 0))

theorem test_witness_SecondCombineDoubles :
    sZero.cfg.Valid ∧ DmLegal sZero.cfg sZero.snap ∧ sZero.hazard = false ∧ hits sZero.cfg sZero.snap 0 = [0, 12]
    ∧ NoSaturation 0 (fun j => sZero.mem.half .lmem j) (hits sZero.cfg sZero.snap 0 ++ hits sZero.cfg sZero.snap 0) := by
  have h0 : ∀ j < 20, sZero.mem.half .lmem j = 0 := by decide +kernel
  have hh : hits sZero.cfg sZero.snap 0 = [0, 12] := by decide +kernel
  refine ⟨test_default_valid, test_legal_pAll .dm, rfl, hh, ?_⟩
  rw [hh]
  intro k hk
  have : k = 0 ∨ k = 1 ∨ k = 2 ∨ k = 3 ∨ k = 4 := by simp at hk; omega
  rcases this with rfl | rfl | rfl | rfl | rfl <;> simp [llrSum, h0]

/-- Two states that agree on LMEM[0, E) and differ in the accumulators. -/
theorem test_witness_ClearDiscardsHistory :
    let s' : State := { sZero with mem := sZero.mem.putHalves .hmem 0 [7] }
    sZero.cfg.Valid ∧ sZero.cfg = s'.cfg ∧ sZero.snap = s'.snap ∧ DmLegal sZero.cfg sZero.snap ∧ sZero.hazard = false ∧ s'.hazard = false ∧ sZero.mem ≠ s'.mem
    ∧ (∀ j < sZero.snap.eN, sZero.mem.half .lmem j = s'.mem.half .lmem j)
    ∧ (∃ t, exec .dmCf sZero = .next t) ∧ ∃ t', exec .dmCf s' = .next t' :=
  ⟨test_default_valid, rfl, rfl, test_legal_pAll .dm, rfl, rfl, by decide +kernel, by decide +kernel, ⟨_, exec_accepted (test_pAll_accepted .dmCf)⟩,
    _, exec_accepted (test_pAll_accepted .dmCf)⟩

/-- OUT_OFFSET and RX_OFFSET at the last place that holds E elements. -/
theorem test_witness_IlInterleaves :
    (IlLegal sAll.cfg sAll.snap ∧ sAll.hazard = false) ∧ IlLegal Config.default { pAll with outOffset := 1048556 } := by
  refine ⟨⟨test_legal_pAll .il, rfl⟩, ?_⟩
  simp only [IlLegal, QmLegal]
  decide

theorem test_witness_DilDeinterleaves :
    (DilLegal sAll.cfg sAll.snap ∧ sAll.hazard = false) ∧ DilLegal Config.default { pAll with rxOffset := 1048556 } := by
  refine ⟨⟨test_legal_pAll .dil, rfl⟩, ?_⟩
  simp only [DilLegal, QmLegal]
  decide

theorem test_witness_DeinterleaveInvertsInterleave : 1 ≤ 8 ∧ ([1, 2, 3, 4, 5, 6, 7, 8] : List Half).length = 1 * 8 := by
  decide

theorem test_witness_RmilSelectsAndInterleaves :
    sAll.cfg.Valid ∧ RmilLegal sAll.cfg sAll.snap ∧ sAll.hazard = false :=
  ⟨test_default_valid, test_legal_pAll .rmil, rfl⟩

/-- Checks that pass, and a Qm that IL does not accept. -/
theorem test_witness_RmilIsRmThenIl :
    (RmilLegal sAll.cfg sAll.snap ∧ sAll.hazard = false) ∧ ¬IlLegal Config.default (inFlight 0x007 { pAll with qm := 5 } (Memory.fresh 0)).snap := by
  refine ⟨⟨test_legal_pAll .rmil, rfl⟩, ?_⟩
  simp only [IlLegal, QmLegal]
  decide

theorem test_witness_DildmDeinterleavesAndCombines :
    sAll.cfg.Valid ∧ DildmLegal sAll.cfg sAll.snap ∧ sAll.hazard = false :=
  ⟨test_default_valid, test_legal_pAll .dildm, rfl⟩

theorem test_witness_DildmIsDilThenDm : DildmLegal sAll.cfg sAll.snap ∧ sAll.hazard = false := ⟨test_legal_pAll .dildm, rfl⟩

theorem test_witness_RejectionIsPrecise :
    validate Config.default .rmil (inFlight 0x007 { pAll with qm := 5 } (Memory.fresh 0)).snap = some .unsupportedModulationOrder := by
  decide

theorem test_witness_DisturbedCommandLeavesFreeValues :
    Legal { sAll with hazard := true }.cfg .rm { sAll with hazard := true }.snap ∧ { sAll with hazard := true }.hazard = true
    ∧ anyHas (writeRanges .rm sAll.snap) 0x200013 = true ∧ anyHas (writeRanges .rm sAll.snap) 0x200014 = false :=
  ⟨test_legal_pAll .rm, rfl, by decide, by decide⟩

/-- Ncb = 16, and Ncb = 0. -/
theorem test_witness_RawStartInsideBuffer :
    Config.default.Valid ∧ (pAll.bgN = 1 ∨ pAll.bgN = 2) ∧ 1 ≤ pAll.zN ∧ pAll.rvN ≤ 3 ∧ 1 ≤ selNcb pAll
    ∧ selNcb { pAll with tbslbrm := 1, c := 2 } = 0 := ⟨test_default_valid, by decide⟩

/-- An index that is usable; E spans more than one pass. -/
theorem test_witness_SelectionProperties :
    Config.default.Valid ∧ SelectorLegal Config.default pAll ∧ 8 < selNcb pAll ∧ ¬(pAll.foffN ≤ 8 ∧ 8 < pAll.foffN + pAll.fN) ∧ pAll.eN / selU pAll = 1 :=
  ⟨test_default_valid, test_legal_pAll .select, by decide⟩

theorem test_witness_LoopComputesSelection :
    SelectorLegal Config.default pAll ∧ selLoop Config.default pAll 32 (selK0 Config.default pAll) 20
      = [0, 1, 2, 3, 8, 9, 10, 11, 12, 13, 14, 15, 0, 1, 2, 3, 8, 9, 10, 11] :=
  ⟨test_legal_pAll .select, by decide +kernel⟩

/-- The last word of DMEM, the byte after it, and a register. -/
theorem test_witness_IllegalAccessesAreBusErrors :
    State.reset.cfg.Valid ∧ 0x1062FC % 4 = 0 ∧ MemId.dmem.start ≤ 0x1062FC
    ∧ 0x1062FC + 4 ≤ MemId.dmem.start + MemId.dmem.bytes Config.default ∧ Reg.capHsize.offset = 0x08C
    ∧ ¬((1 = 4 ∧ ∃ r : Reg, 0x106300 = r.offset)
      ∨ ((1 = 1 ∨ 1 = 2 ∨ 1 = 4) ∧ 0x106300 % 1 = 0
        ∧ ∃ m : MemId, m.start ≤ 0x106300 ∧ 0x106300 + 1 ≤ m.start + m.bytes Config.default)) := by
  refine ⟨test_default_valid, by decide, by decide, by decide, rfl, ?_⟩
  rintro (⟨h, -⟩ | ⟨-, -, m, hm⟩)
  · omega
  · revert hm
    cases m <;> decide

/-- The last element of HMEM, at its last byte. -/
theorem test_witness_WindowWriteReadsBack :
    State.reset.cfg.Valid ∧ State.reset.busy = false ∧ 0x8C5FFF % 1 = 0 ∧ MemId.hmem.start ≤ 0x8C5FFF
    ∧ 0x8C5FFF + 1 ≤ MemId.hmem.start + MemId.hmem.bytes Config.default :=
  ⟨test_default_valid, by decide⟩

theorem test_witness_ByteLanesOfHalfElements :
    State.reset.cfg.Valid ∧ State.reset.busy = false ∧ MemId.hmem.esz = 2
    ∧ 405503 < MemId.hmem.elems Config.default := ⟨test_default_valid, by decide⟩

/-- A register and a memory. -/
theorem test_witness_ReadsHaveNoSideEffects :
    State.reset.busy = false ∧ (∃ t, hostRead State.reset 0x08C 4 = .next t) ∧ ∃ t, hostRead State.reset 0x8C5FFE 2 = .next t :=
  ⟨rfl, ⟨_, rfl⟩, _, rfl⟩

theorem test_witness_CommandWordAcceptedOrDropped : sAll.busy = true ∧ State.reset.busy = false := by decide

theorem test_witness_CtrlWriteResetsOrEnables : (0x3 : Word).getLsbD 1 = true ∧ (0x1 : Word).getLsbD 1 = false := by decide

theorem test_witness_SoftResetKeepsMemories :
    State.reset.busy = false ∧ sAll.busy = true ∧ decode sAll.cmd = .cmd .rm ∧ Legal sAll.cfg .rm sAll.snap :=
  ⟨rfl, rfl, by decide, test_legal_pAll .rm⟩

theorem test_witness_InterruptClearing :
    let s : State := { State.reset with irqEn := true, done := true, err := true }
    ((0x6 : Word).getLsbD 1 = true ∧ s.err = true ∧ (0x6 : Word).getLsbD 2 = true) ∧ (0x0 : Word).getLsbD 0 = false
    ∧ s.busy = false ∧ s.irq = true := by decide

/-- A reset of a block with a command in flight, either way. -/
theorem test_witness_ResetRegisterValues :
    ∀ t ∈ [State.reset, sAll.softReset, sAll.hardwareReset],
      t = State.reset ∨ ∃ s : State, t = s.softReset ∨ t = s.hardwareReset := by
  intro t ht
  simp only [List.mem_cons, List.not_mem_nil, or_false] at ht
  rcases ht with rfl | rfl | rfl
  · exact .inl rfl
  · exact .inr ⟨sAll, .inl rfl⟩
  · exact .inr ⟨sAll, .inr rfl⟩

/-- A poll, a hardware reset and a soft reset while RM is in flight. -/
theorem test_witness_HostStepsLeaveCommand :
    ∀ x ∈ [Input.wait, .hwReset, .write 0x004 4 0x2],
      { sAll with latency := 2, inbox := [x] }.busy = true ∧ { sAll with latency := 2, inbox := [x] }.latency ≠ 0
      ∧ ∃ t, step { sAll with latency := 2, inbox := [x] } = .next t := by
  intro x hx
  simp only [List.mem_cons, List.not_mem_nil, or_false] at hx
  rcases hx with rfl | rfl | rfl <;> exact ⟨rfl, by decide, _, rfl⟩

/-- The last byte RM writes, the first words past what it writes and reads, and the last byte it reads. -/
theorem test_witness_HazardRecorded :
    let ranges := readRanges .rm sAll.snap ++ writeRanges .rm sAll.snap
    (sAll.cfg.Valid ∧ sAll.busy = true ∧ decode sAll.cmd = .cmd .rm ∧ Legal sAll.cfg .rm sAll.snap)
    ∧ (∃ k < 1, anyHas ranges (0x200013 + k) = true) ∧ (∀ k < 4, anyHas ranges (0x200014 + k) = false)
    ∧ (∃ k < 1, anyHas ranges (0x10000F + k) = true) ∧ (∀ k < 4, anyHas ranges (0x100010 + k) = false)
    ∧ MemId.emem.start ≤ 0x200014 ∧ 0x200014 + 4 ≤ MemId.emem.start + MemId.emem.bytes Config.default :=
  ⟨⟨test_default_valid, rfl, by decide, test_legal_pAll .rm⟩, by decide, by decide, by decide, by decide, by decide,
    by decide⟩

/-- R76 and U4 as steps: a host read of the last byte RM reads, and a host write one byte past it. -/
theorem test_hazard_read :
    after State.hazard (hostRead sAll 0x10000F 1) = some true
    ∧ after (fun t => t.hazard) (hostWrite sAll 0x100010 1 0) = some false := by decide

theorem test_witness_WaitLoopEnds :
    { sAll with latency := 5, inbox := [.wait] }.busy = true ∧ { sAll with latency := 5, inbox := [.wait] }.inbox = [.wait] := by
  decide

theorem test_witness_BusyOnlyByAcceptance :
    ∃ t, step { State.reset with inbox := [.write 0x00C 4 0x003] } = .next t ∧ State.reset.busy = false ∧ t.busy = true :=
  ⟨_, rfl, rfl, rfl⟩

/-- By CLRERR, by a soft reset, by a hardware reset. -/
theorem test_witness_ErrorRecordClearedOnlyBy :
    ∀ s ∈ [{ inFlight 0x009 pAll (Memory.fresh 0) with errcode := 0x0104 },
        { State.reset with errcode := 0x0104, inbox := [.write 0x004 4 0x2] },
        { State.reset with errcode := 0x0104, inbox := [.hwReset] }],
      s.errcode ≠ 0 ∧ ∃ t, step s = .next t ∧ t.errcode = 0 := by
  intro s hs
  simp only [List.mem_cons, List.not_mem_nil, or_false] at hs
  rcases hs with rfl | rfl | rfl <;> exact ⟨by decide, _, rfl, rfl⟩

/-- MARKF changes DMEM[4] from 0 to 2, and a host write changes it to 1. -/
theorem test_witness_MemoryChangesOnlyBy :
    (∃ t, step (inFlight 0x002 pAll (memBits .dmem [0, 0, 0, 0, 0])) = .next t
      ∧ t.mem.readByte 0x100004 ≠ (memBits .dmem [0, 0, 0, 0, 0]).readByte 0x100004)
    ∧ ∃ t, step { State.reset with mem := memBits .dmem [0, 0, 0, 0, 0], inbox := [.write 0x100004 1 1] } = .next t
      ∧ t.mem.readByte 0x100004 ≠ (memBits .dmem [0, 0, 0, 0, 0]).readByte 0x100004 :=
  ⟨⟨_, rfl, by decide +kernel⟩, ⟨_, rfl, by decide +kernel⟩⟩

/-- RM in flight, and its step. -/
theorem test_witness_StepKeepsInvariant : Inv sAll ∧ ∃ t, step sAll = .next t :=
  ⟨{ valid := test_default_valid, wf := List.Pairwise.nil,
     mapped := by intro x hx; simp [sAll, inFlight, State.reset, State.initial, Memory.fresh] at hx,
     busyDone := by decide, hazardBusy := by decide, record := .inl (by decide), results := .inl (by decide),
     bounds := .inl (by decide), outlen := .inl (by decide) }, _, rfl⟩

end Sys2Proof.Tests
end

section
/-! The invariant of the machine: it holds after reset, and every step keeps it and the parameters of R8. -/

namespace Sys2Proof.Machine

/-! ### Memory stays mapped -/

/-- Storing bytes inside the mapped part of one memory keeps every listed byte mapped (R66). -/
theorem Memory.writeBytes_mapped {c : Config} {m : Memory} {x : MemId} {a : Nat} {vs : List Byte} (hm : m.Mapped c)
    (hlo : x.start ≤ a) (hhi : a + vs.length ≤ x.start + x.bytes c) : (m.writeBytes a vs).Mapped c := by
  intro cell hcell
  rcases Memory.mem_cells_writeBytes hcell with h | h
  · exact MemId.ofAddr_isSome (x := x) ⟨by omega, by omega⟩
  · exact hm cell h

/-- Freeing mapped ranges keeps every listed byte mapped (R66, R232, R240). -/
theorem Memory.scramble_mapped {c : Config} {m : Memory} {e : Nat} {rs : List Range} (hm : m.Mapped c)
    (hrs : ∀ a, anyHas rs a = true → (MemId.ofAddr c a).isSome) : (m.scramble e rs).Mapped c :=
  fun cell hcell => (Memory.mem_cells_scramble hcell).elim (hrs cell.1) (hm cell)

theorem Memory.fresh_mapped (c : Config) (e : Nat) : (Memory.fresh e).Mapped c := by
  simp [Memory.Mapped, Memory.fresh]

/-- Storing in mapped ranges keeps every listed byte mapped (R66). -/
theorem StoresIn.mapped {f : Memory → Memory} {rs : List Range} {c : Config} {m : Memory} (hf : StoresIn f rs)
    (hm : m.Mapped c) (hrs : ∀ a, anyHas rs a = true → (MemId.ofAddr c a).isSome) : (f m).Mapped c :=
  fun cell hcell => (hf.cells m cell hcell).elim (hrs cell.1) (hm cell)

/-! ### The bounds of a selection -/

/-- `N` is the number of K0TAB's denominator times `Z` (R106, R107). -/
theorem selN_eq_mul (p : Params) : selN p = (if p.bgN = 1 then 66 else 50) * p.zN := by
  unfold selN
  split <;> rfl

/-- The raw start index is inside the circular buffer (R109): the K0TAB entry is below `N / Z`. -/
theorem selK0raw_lt {c : Config} (hc : c.Valid) {p : Params} (hn : 1 ≤ selNcb p) : selK0raw c p < selNcb p := by
  have hk := k0Tab_lt hc p.bgN p.rvN
  rw [selK0raw, selN_eq_mul]
  generalize (if p.bgN = 1 then 66 else 50) = d at hk
  generalize c.k0Tab p.bgN p.rvN = k at hk
  calc k * selNcb p / (d * p.zN) * p.zN
      = k * selNcb p / d / p.zN * p.zN := by rw [Nat.div_div_eq_div_mul]
    _ ≤ k * selNcb p / d := Nat.div_mul_le_self _ _
    _ < selNcb p := Nat.div_lt_of_lt_mul (Nat.mul_lt_mul_of_pos_right hk hn)

/-- The result registers of a selection are within its bounds (R109, R112, R114). -/
theorem ResultsOfSelection.inRange {s : State} (hc : s.cfg.Valid) (h : ResultsOfSelection s) : ResultsInRange s := by
  rcases h with h0 | ⟨p, ⟨⟨-, -, hz⟩, -, -, -, -, -, hu⟩, hk0raw, hk0, hncb, husable⟩
  · exact .inl h0
  · right
    have hU := selU_le_selNcb p
    have hN : selNcb p ≤ s.cfg.dSize := (selNcb_le_selN p).trans (selN_le_dSize hc hz)
    have hfits := hc.dSize_le
    have hraw : selK0raw s.cfg p < selNcb p := selK0raw_lt hc (by omega)
    have hstart : selK0 s.cfg p < selNcb p := selK0_lt (by omega)
    rw [hk0raw, hk0, hncb, husable]
    simp only [BitVec.toNat_ofNat]
    omega

/-! ### What the invariant reads -/

/-- The invariant reads none of IRQ_EN, OVR, the parameter registers, the accepted word, the snapshot, the free values'
counter and the host's side. -/
theorem Inv.of_unread {s : State} (h : Inv s) {irqEn ovr : Bool} {params snap : Params} {cmd : Word}
    {latency freeCtr : Nat} {inbox : List Input} {resp : BusResp} :
    Inv { s with irqEn := irqEn, ovr := ovr, params := params, cmd := cmd, snap := snap, latency := latency,
                 freeCtr := freeCtr, inbox := inbox, resp := resp } :=
  { h with }

/-- The error record allows ERR to be cleared by the host (R31, R34). -/
theorem ErrorRecord.statusWrite {s : State} (h : ErrorRecord s) (v : Word) : ErrorRecord (s.statusWrite v) := by
  rcases h with ⟨hcode, hcmd, herr⟩ | h
  · exact .inl ⟨hcode, hcmd, by simp [herr]⟩
  · exact .inr h

/-! ### Resets -/

/-- Registers at reset and a memory in canonical form, all of it mapped, meet the invariant (R52, R233). -/
theorem inv_resetRegisters {s : State} (hc : s.cfg.Valid) {m : Memory} (hwf : m.wf) (hm : m.Mapped s.cfg)
    {freeCtr : Nat} : Inv { s.resetRegisters with mem := m, freeCtr := freeCtr } where
  valid := hc
  wf := hwf
  mapped := hm
  busyDone := nofun
  hazardBusy := nofun
  record := .inl ⟨rfl, rfl, rfl⟩
  results := .inl ⟨rfl, rfl, rfl, rfl⟩
  bounds := .inl ⟨rfl, rfl, rfl, rfl⟩
  outlen := .inl (Nat.zero_le _)

theorem inv_initial {c : Config} (hc : c.Valid) : Inv (State.initial c) :=
  inv_resetRegisters (s := State.initial c) hc (Memory.fresh_wf 0) (Memory.fresh_mapped c 0)

theorem Inv.hardwareReset {s : State} (h : Inv s) : Inv s.hardwareReset :=
  inv_resetRegisters h.valid (Memory.fresh_wf _) (Memory.fresh_mapped _ _)

/-- A soft reset frees at most mapped bytes (R232). -/
theorem Inv.softReset {s : State} (h : Inv s) : Inv s.softReset := by
  cases hb : s.busy with
  | false =>
    rw [softReset_idle hb]
    exact inv_resetRegisters h.valid h.wf h.mapped
  | true =>
    rw [softReset_busy hb]
    exact inv_resetRegisters h.valid (Memory.scramble_wf _ _ h.wf)
      (Memory.scramble_mapped h.mapped fun _ => flightWrites_mapped h.valid)

/-! ### Register writes -/

theorem Inv.ctrlWrite {s : State} (h : Inv s) (v : Word) : Inv (s.ctrlWrite v) := by
  unfold State.ctrlWrite
  split
  · exact h.softReset
  · exact h.of_unread

theorem Inv.statusWrite {s : State} (h : Inv s) (v : Word) : Inv (s.statusWrite v) :=
  { h with
    busyDone := fun hb => by simp [h.busyDone hb]
    record := h.record.statusWrite v }

/-- Acceptance clears DONE and the hazard; a dropped word sets only OVR (R88). -/
theorem Inv.commandWrite {s : State} (h : Inv s) (w : Word) : Inv (s.commandWrite w) := by
  unfold State.commandWrite
  split
  · exact h.of_unread
  · exact { h with busyDone := fun _ => rfl, hazardBusy := nofun }

theorem Inv.writeReg {s : State} (h : Inv s) (r : Reg) (v : Word) : Inv (s.writeReg r v) := by
  cases r
  case ctrl => exact h.ctrlWrite v
  case status => exact h.statusWrite v
  case cmd => exact h.commandWrite v
  all_goals exact h.of_unread

/-! ### Window accesses -/

/-- A hazard is recorded only against a command in flight (R240). -/
theorem Inv.recordAccess {s : State} (h : Inv s) (a n : Nat) : Inv (s.recordAccess a n) := by
  cases hb : s.busy with
  | false =>
    rw [recordAccess_idle hb]
    exact h
  | true =>
    unfold State.recordAccess
    split
    · exact { h with hazardBusy := fun _ => hb }
    · exact h

theorem Inv.readWindow {s : State} (h : Inv s) (a n : Nat) : Inv (s.readWindow a n) :=
  (h.recordAccess a n).of_unread

/-- A legal window write stays inside the mapped part of its memory (R66, R72). -/
theorem Inv.writeWindow {s : State} (h : Inv s) {a n : Nat} {m : MemId} (ht : target s.cfg a n = .ok (.window m))
    (v : Word) : Inv (s.writeWindow a n v) := by
  obtain ⟨-, -, hlo, hhi⟩ := target_window_legal ht
  exact { h.recordAccess a n with
    wf := Memory.writeBytes_wf _ _ h.wf
    mapped := by
      rw [State.writeWindow, State.recordAccess_cfg]
      exact Memory.writeBytes_mapped h.mapped hlo (by simpa using hhi) }

/-! ### Inputs -/

theorem Inv.input {s t : State} {x : Input} (h : Inv s) (ht : input s x = .next t) : Inv t := by
  rcases input_cases ht with ⟨r, -, rfl⟩ | ⟨a, n, m, -, -, rfl⟩ | ⟨r, v, -, rfl⟩ | ⟨a, n, m, v, -, hw, rfl⟩ |
    ⟨-, rfl⟩ | ⟨-, rfl⟩
  · exact h.of_unread
  · exact h.readWindow a n
  · exact (h.writeReg r v).of_unread
  · exact h.writeWindow hw v
  · exact h.of_unread
  · exact h.hardwareReset

@[simp] theorem softReset_cfg (s : State) : s.softReset.cfg = s.cfg := by
  unfold State.softReset
  split <;> rfl

@[simp] theorem writeReg_cfg (s : State) (r : Reg) (v : Word) : (s.writeReg r v).cfg = s.cfg := by
  cases r
  case ctrl => simp only [State.writeReg, State.ctrlWrite]; split <;> simp
  case cmd => simp only [State.writeReg, State.commandWrite]; split <;> rfl
  all_goals rfl

theorem input_cfg {s t : State} {x : Input} (ht : input s x = .next t) : t.cfg = s.cfg := by
  rcases input_cases ht with ⟨r, -, rfl⟩ | ⟨a, n, m, -, -, rfl⟩ | ⟨r, v, -, rfl⟩ | ⟨a, n, m, v, -, -, rfl⟩ |
    ⟨-, rfl⟩ | ⟨-, rfl⟩
  · rfl
  · exact s.recordAccess_cfg a n
  · exact writeReg_cfg s r v
  · exact s.recordAccess_cfg a n
  · rfl
  · rfl

/-! ### Rejection -/

/-- The command word can be rejected for this reason: it is illegal, or it is a command that has the check (R91,
R196). -/
def RejectableWith (w : Word) (r : Reason) : Prop :=
  (∃ d, decode w = .illegal d ∧ r = .illegalCommand d) ∨ ∃ i, decode w = .cmd i ∧ ∃ k ∈ checksOf i, k.reason = r

theorem ErrorRecord.reject {s : State} {r : Reason} (hr : RejectableWith s.cmd r) : ErrorRecord (s.reject r) := by
  rcases hr with ⟨d, hd, rfl⟩ | ⟨i, hi, k, hk, rfl⟩
  · exact .inr (.inl ⟨d, hd, rfl⟩)
  · exact .inr (.inr ⟨i, k, hi, hk, rfl⟩)

theorem Inv.reject {s : State} (h : Inv s) {r : Reason} (hr : RejectableWith s.cmd r) : Inv (s.reject r) :=
  { h with busyDone := nofun, hazardBusy := nofun, record := .reject hr }

/-! ### The effect of an accepted command -/

@[simp] theorem effect_cfg (i : Instr) (s : State) : (effect i s).cfg = s.cfg := by
  cases i <;> simp [effect]

/-- CLRERR clears the error record, no other command touches it (R182, R200). -/
theorem effect_record (i : Instr) {s : State} (h : ErrorRecord s) : ErrorRecord (effect i s) := by
  by_cases hi : i = .clrerr
  · subst hi
    exact .inl ⟨rfl, rfl, rfl⟩
  · have hsame : (effect i s).errcode = s.errcode ∧ (effect i s).errcmd = s.errcmd ∧ (effect i s).err = s.err := by
      cases i <;> simp [effect] at hi ⊢
    unfold ErrorRecord
    rwa [hsame.1, hsame.2.1, hsame.2.2]

/-- A row with the empty-buffer check tests all that a selection needs (R198). -/
theorem selectorLegal_of_validate {c : Config} {i : Instr} {p : Params} (h : validate c i p = none)
    (hk : Check.nu ∈ checksOf i) : SelectorLegal c p := by
  have hrow : ∀ k ∈ [Check.bg, .z, .rv, .c, .ez, .fe, .fn, .nu], k ∈ checksOf i := by
    revert hk
    cases i <;> decide
  have hpass := fun k hk => validate_none h (hrow k hk)
  simpa [SelectorLegal, BgZLegal, and_assoc] using hpass

/-- A command with the empty-buffer check puts its selection into the result registers (R45). -/
theorem effect_selects {i : Instr} (hk : Check.nu ∈ checksOf i) (s : State) :
    (effect i s).k0raw = s.putSelection.k0raw ∧ (effect i s).k0 = s.putSelection.k0
      ∧ (effect i s).ncb = s.putSelection.ncb ∧ (effect i s).usable = s.putSelection.usable := by
  revert hk
  cases i <;> simp [effect, checksOf]

/-- A command without the empty-buffer check leaves the result registers (R45). -/
theorem effect_keeps_results {i : Instr} (hk : Check.nu ∉ checksOf i) (s : State) :
    (effect i s).k0raw = s.k0raw ∧ (effect i s).k0 = s.k0 ∧ (effect i s).ncb = s.ncb
      ∧ (effect i s).usable = s.usable := by
  revert hk
  cases i <;> simp [effect, checksOf]

theorem effect_resultsOfSelection {i : Instr} {s : State} (hv : validate s.cfg i s.snap = none)
    (h : ResultsOfSelection s) : ResultsOfSelection (effect i s) := by
  by_cases hk : Check.nu ∈ checksOf i
  · obtain ⟨hk0raw, hk0, hncb, husable⟩ := effect_selects hk s
    refine .inr ⟨s.snap, ?_⟩
    rw [effect_cfg]
    exact ⟨selectorLegal_of_validate hv hk, hk0raw, hk0, hncb, husable⟩
  · obtain ⟨hk0raw, hk0, hncb, husable⟩ := effect_keeps_results hk s
    rw [ResultsOfSelection, effect_cfg, hk0raw, hk0, hncb, husable]
    exact h

/-- What each command leaves in OUTLEN, its checks having passed (R45). -/
def outlenAfter : Instr → Params → Nat
  | .markf, p => p.fN
  | .rm, p | .dm, p | .dmCf, p | .il, p | .dil, p | .rmil, p | .dildm, p | .dildmCf, p => p.eN
  | .nop, _ | .select, _ | .clrerr, _ | .rmSkip, _ | .dmSkip, _ | .ilSkip, _ | .dilSkip, _ | .rmilSkip, _
  | .dildmSkip, _ => 0

theorem effect_outlen (i : Instr) (s : State) : (effect i s).outlen = BitVec.ofNat 32 (outlenAfter i s.snap) := by
  cases i <;> rfl

theorem eN_le_eMax_of_validate {c : Config} {i : Instr} {p : Params} (h : validate c i p = none) {bs : List Bound}
    (hk : Check.buf (.e :: bs) ∈ checksOf i) : p.eN ≤ c.eMax :=
  (Bound.e_passes c p).1 ((Check.buf_passes c p _).1 (validate_none h hk) .e (by simp))

/-- OUTLEN counts EMEM, OMEM or LMEM elements, or MARKF's filler bits (R42, R165). -/
theorem outlenAfter_le {c : Config} (hc : c.Valid) {i : Instr} {p : Params} (h : validate c i p = none) :
    outlenAfter i p ≤ c.eMax ∨ outlenAfter i p ≤ c.dSize := by
  cases i
  case markf =>
    have hz := (Check.z_passes c p).1 (validate_none h (by simp [checksOf]))
    have hf := (Check.fr_passes c p).1 (validate_none h (by simp [checksOf]))
    have hN := selN_le_dSize hc hz.2
    right
    simp only [outlenAfter]
    omega
  case rm | dm | dmCf | il | dil | rmil | dildm | dildmCf =>
    exact .inl (eN_le_eMax_of_validate h (by simp [checksOf]; rfl))
  all_goals exact .inl (Nat.zero_le _)

theorem effect_outlenInRange {i : Instr} {s : State} (hc : s.cfg.Valid) (hv : validate s.cfg i s.snap = none) :
    OutlenInRange (effect i s) := by
  have hle : (effect i s).outlen.toNat ≤ outlenAfter i s.snap := by
    rw [effect_outlen, BitVec.toNat_ofNat]
    exact Nat.mod_le _ _
  rw [OutlenInRange, effect_cfg]
  exact (outlenAfter_le hc hv).imp hle.trans hle.trans

/-- An accepted command leaves the memory in its canonical form, disturbed or not. -/
theorem effect_mem_wf {i : Instr} {s : State} (hv : validate s.cfg i s.snap = none) (h : s.mem.wf) :
    (effect i s).mem.wf := by
  have hm := (memoryEffect_storesIn hv).wf s.mem h
  rw [effect_mem]
  split
  · exact Memory.scramble_wf _ _ hm
  · exact hm

/-- An accepted command writes nothing outside the six memories, disturbed or not (R66). -/
theorem effect_mem_mapped {i : Instr} {s : State} (hc : s.cfg.Valid) (hv : validate s.cfg i s.snap = none)
    (h : s.mem.Mapped s.cfg) : (effect i s).mem.Mapped s.cfg := by
  have hrs := fun a => writeRanges_mapped hc hv (a := a)
  have hm := (memoryEffect_storesIn hv).mapped h hrs
  rw [effect_mem]
  split
  · exact Memory.scramble_mapped hm hrs
  · exact hm

/-- BUSY, DONE and the hazard change at completion only (R48). -/
theorem effect_engine (i : Instr) (s : State) :
    (effect i s).busy = s.busy ∧ (effect i s).done = s.done ∧ (effect i s).hazard = s.hazard := by
  cases i <;> simp [effect]

theorem Inv.effect {i : Instr} {s : State} (h : Inv s) (hv : validate s.cfg i s.snap = none) : Inv (effect i s) := by
  obtain ⟨hbusy, hdone, hhazard⟩ := effect_engine i s
  have hresults := effect_resultsOfSelection hv h.results
  exact {
    valid := by simpa using h.valid
    wf := effect_mem_wf hv h.wf
    mapped := by simpa using effect_mem_mapped h.valid hv h.mapped
    busyDone := by simpa only [hbusy, hdone] using h.busyDone
    hazardBusy := by simpa only [hbusy, hhazard] using h.hazardBusy
    record := effect_record i h.record
    results := hresults
    bounds := hresults.inRange (by simpa using h.valid)
    outlen := effect_outlenInRange h.valid hv }

theorem Inv.complete {s : State} (h : Inv s) : Inv s.complete :=
  { h with busyDone := nofun, hazardBusy := nofun }

/-! ### The step -/

/-- A command that is executed is rejected with an error of its row or takes its effect, and either way keeps the
invariant (R197, R199). -/
theorem Inv.exec {i : Instr} {s t : State} (h : Inv s) (hd : decode s.cmd = .cmd i) (ht : exec i s = .next t) :
    Inv t := by
  cases hv : validate s.cfg i s.snap with
  | some r =>
    rw [exec_rejected hv] at ht
    obtain rfl := Host.Outcome.next.inj ht
    exact h.reject (.inr ⟨i, hd, validate_reason hv⟩)
  | none =>
    rw [exec_accepted hv] at ht
    obtain rfl := Host.Outcome.next.inj ht
    exact (h.effect hv).complete

theorem exec_cfg {i : Instr} {s t : State} (ht : exec i s = .next t) : t.cfg = s.cfg := by
  rw [exec_eq] at ht
  obtain rfl := Host.Outcome.next.inj ht
  split <;> simp

theorem Inv.step {s t : State} (h : Inv s) (ht : step s = .next t) : Inv t := by
  rcases step_cases ht with ⟨-, i, hd, he⟩ | ⟨-, d, hd, rfl⟩ | ⟨-, -, rfl⟩ | ⟨-, x, rest, -, hx⟩
  · exact h.exec hd he
  · exact h.reject (.inl ⟨d, hd, rfl⟩)
  · exact h
  · exact h.of_unread.input hx

/-- The parameters of R8 are the same after every step. -/
theorem step_cfg {s t : State} (ht : step s = .next t) : t.cfg = s.cfg := by
  rcases step_cases ht with ⟨-, i, -, he⟩ | ⟨-, d, -, rfl⟩ | ⟨-, -, rfl⟩ | ⟨-, x, rest, -, hx⟩
  · exact exec_cfg he
  · rfl
  · rfl
  · exact (input_cfg hx).trans rfl

/-! ### The obligations -/

/-- The defaults of R8 meet the constraints of R9. -/
theorem config_default_valid : Config.default.Valid := by constructor <;> decide

/-- Settles O59: the registers' reset values meet the invariant, and the memory lists nothing. -/
theorem resetMeetsInvariant : Obligations.ResetMeetsInvariant := inv_initial config_default_valid

/-- Settles O60, by what a step can do: the engine rejects or completes its command, or the host makes an access. -/
theorem stepKeepsInvariant : Obligations.StepKeepsInvariant := fun _ _ h ht => ⟨h.step ht, step_cfg ht⟩

end Sys2Proof.Machine
end

section
/-! The registers as the host reads and writes them, and what a step keeps of the command in flight and of the error
record. -/

namespace Sys2Proof.Machine

/-! ### Register accesses -/

/-- A read of a register is legal at any time and answers its value (R26, R77). -/
theorem hostRead_register (s : State) (r : Reg) :
    hostRead s r.offset 4 = .next { s with resp := .data (s.readReg r) } := by
  simp only [hostRead, target_register.2 ⟨rfl, rfl⟩]

/-- A write to a register is legal at any time (R23, R26). -/
theorem hostWrite_register (s : State) (r : Reg) (v : Word) :
    hostWrite s r.offset 4 v = .next { s.writeReg r v with resp := .written } := by
  simp only [hostWrite, target_register.2 ⟨rfl, rfl⟩]

/-- No register holds the answer on the bus. -/
@[simp] theorem readReg_resp (s : State) (x : BusResp) (r : Reg) :
    ({ s with resp := x } : State).readReg r = s.readReg r := rfl

/-! ### What a register reads after a register write -/

/-- The twelve parameter registers of R24. -/
def paramRegs : List Reg :=
  [.bg, .z, .c, .f, .foff, .tbslbrm, .rv, .qm, .e, .outOffset, .rxOffset, .harqBase]

/-- The read-only registers that do not show STATUS bits (R23, R26). -/
def readOnlyRegs : List Reg :=
  [.id, .errcode, .errcmd, .k0raw, .k0, .ncb, .usable, .outlen, .capZmax, .capEmax, .capGmax, .capHsize]

theorem readReg_writeReg_param {r : Reg} (hr : r ∈ paramRegs) (s : State) (v : Word) (q : Reg) :
    (s.writeReg r v).readReg q = if q = r then v else s.readReg q := by
  fin_cases hr <;> cases q <;> rfl

/-- A write to a parameter register changes the parameter registers alone. -/
theorem writeReg_param {r : Reg} (hr : r ∈ paramRegs) (s : State) (v : Word) :
    s.writeReg r v = { s with params := (s.writeReg r v).params } := by
  fin_cases hr <;> rfl

theorem readReg_writeReg_sentinel (s : State) (v : Word) (q : Reg) :
    (s.writeReg .sentinel v).readReg q = if q = .sentinel then (v.extractLsb' 0 8).setWidth 32 else s.readReg q := by
  cases q <;> rfl

theorem writeReg_readOnly {r : Reg} (hr : r ∈ readOnlyRegs) (s : State) (v : Word) : s.writeReg r v = s := by
  fin_cases hr <;> rfl

/-- The low byte of a word, zero-extended, is the word with its upper bits masked. -/
theorem setWidth_lowByte (v : Word) : (v.extractLsb' 0 8).setWidth 32 = v &&& 0xFF#32 := by
  apply BitVec.eq_of_toNat_eq
  have hmask : v.toNat &&& 255 = v.toNat % 256 := Nat.and_two_pow_sub_one_eq_mod v.toNat 8
  rw [BitVec.toNat_setWidth, BitVec.extractLsb'_toNat, BitVec.toNat_and, BitVec.toNat_ofNat, hmask]
  omega

theorem ctrlWrite_softReset {v : Word} (h : v.getLsbD 1 = true) (s : State) : s.ctrlWrite v = s.softReset := by
  simp [State.ctrlWrite, h]

theorem ctrlWrite_irqEn {v : Word} (h : v.getLsbD 1 = false) (s : State) :
    s.ctrlWrite v = { s with irqEn := v.getLsbD 0 } := by
  rw [State.ctrlWrite, h]
  rfl

/-- A command word written while BUSY is dropped (R88). -/
theorem commandWrite_busy {s : State} (h : s.busy = true) (w : Word) : s.commandWrite w = { s with ovr := true } := by
  rw [State.commandWrite, h]
  rfl

/-- A command word written to the idle block is accepted (R88). -/
theorem commandWrite_idle {s : State} (h : s.busy = false) (w : Word) :
    s.commandWrite w = { s.load w (Config.latency s.freeCtr) with freeCtr := s.freeCtr + 1 } := by
  rw [State.commandWrite, h]
  rfl

/-- The bits of STATUS (R26). -/
theorem statusWord_getLsbD (s : State) (k : Nat) :
    s.statusWord.getLsbD k = match k with
      | 0 => s.busy
      | 1 => s.done
      | 2 => s.err
      | 3 => s.ovr
      | _ + 4 => false := by
  match k with
  | 0 | 1 | 2 | 3 | _ + 4 => simp [State.statusWord]

/-! ### Reads -/

/-- No read looks at the answer to the access before it. -/
theorem hostRead_resp (s : State) (x : BusResp) (a n : Nat) :
    hostRead { s with resp := x } a n = hostRead s a n := by
  have hwindow : ({ s with resp := x } : State).readWindow a n = s.readWindow a n := by
    have hranges : ({ s with resp := x } : State).flightRanges = s.flightRanges := rfl
    unfold State.readWindow State.accessBytes State.recordAccess
    rw [hranges]
    split <;> rfl
  simp only [hostRead, hwindow]
  rfl

/-- A read while no command is in flight changes the answer on the bus alone (R77). -/
theorem hostRead_idle {s t : State} {a n : Nat} (hb : s.busy = false) (h : hostRead s a n = .next t) :
    t = { s with resp := t.resp } := by
  unfold hostRead at h
  split at h
  · simp at h
  · obtain rfl := Host.Outcome.next.inj h
    rfl
  · obtain rfl := Host.Outcome.next.inj h
    simp only [State.readWindow, recordAccess_idle hb]

/-! ### When the engine moves -/

theorem engineTurn_iff (s : State) : s.engineTurn = true ↔ s.busy = true ∧ (s.latency = 0 ∨ s.inbox = []) := by
  simp [State.engineTurn]

/-- When the engine moves and its word is a command, the step is that command's meaning (R48, R88). -/
theorem step_exec {s : State} {i : Instr} (ht : s.engineTurn = true) (hd : decode s.cmd = .cmd i) :
    step s = exec i s := by
  simp only [step, ht, if_true, engineStep, hd]

/-- When it is the host's turn, the step is its next access (R79). -/
theorem step_input {s : State} {x : Input} {rest : List Input} (ht : s.engineTurn = false) (hi : s.inbox = x :: rest) :
    step s = input { s with inbox := rest, latency := s.latency - 1 } x := by
  simp [step, ht, hi, hostStep]

/-! ### What a command's completion leaves -/

/-- An accepted command leaves every byte outside its write ranges, disturbed or not (R60, R66, R240). -/
theorem readByte_effect_outside {i : Instr} {s : State} (hv : validate s.cfg i s.snap = none) {a : Nat}
    (ha : anyHas (writeRanges i s.snap) a = false) : (effect i s).mem.readByte a = s.mem.readByte a := by
  have hm : (memoryEffect s.cfg i s.snap s.mem).readByte a = s.mem.readByte a :=
    (memoryEffect_storesIn hv).outside _ _ ha
  rw [effect_mem]
  split
  · simp [Memory.readByte_scramble, ha, hm]
  · exact hm

/-- IRQ follows IRQ_EN once DONE is set (R205). -/
theorem irq_of_done {s : State} (h : s.done = true) : s.irq = s.irqEn := by
  simp [State.irq, h]

theorem putMem_setParams (s : State) (p : Params) (ws : List Range) (m : Memory) :
    ({ s with params := p } : State).putMem ws m = { s.putMem ws m with params := p } := by
  unfold State.putMem
  split <;> rfl

/-- No command's effect reads the live parameter registers (R47). -/
theorem effect_setParams (i : Instr) (s : State) (p : Params) :
    effect i { s with params := p } = { effect i s with params := p } := by
  cases i
  case markf | rm | dm | dmCf | il | dil | rmil | dildm | dildmCf =>
    simp only [effect, putMem_setParams]
    rfl
  all_goals rfl

/-- CLRERR alone touches ERRCODE when it takes effect (R182, R200). -/
theorem effect_errcode {i : Instr} (hi : i ≠ .clrerr) (s : State) : (effect i s).errcode = s.errcode := by
  cases i <;> simp [effect] at hi ⊢

/-- No rejection records the code 0 (R191 to R194). -/
theorem Reason.code_ne_zero (r : Reason) : r.code ≠ 0 := by
  cases r with
  | invalidParameter d => cases d <;> decide
  | unsupportedModulationOrder => decide
  | illegalCommand d => cases d <;> decide

/-- A command's completion makes ERRCODE 0 only when it was 0 or the command is CLRERR (R34, R183). -/
theorem eq_clrerr_of_exec {i : Instr} {s t : State} (h : exec i s = .next t) (hs : s.errcode ≠ 0)
    (ht : t.errcode = 0) : i = .clrerr := by
  cases hv : validate s.cfg i s.snap with
  | some r =>
    rw [exec_rejected hv] at h
    obtain rfl := Host.Outcome.next.inj h
    exact absurd ht r.code_ne_zero
  | none =>
    rw [exec_accepted hv] at h
    obtain rfl := Host.Outcome.next.inj h
    by_contra hi
    exact hs ((effect_errcode hi s).symm.trans ht)

/-! ### What the host's side can do to the engine -/

/-- The engine's command, the results and the error code are the same in both states. -/
structure SameEngine (s t : State) : Prop where
  busy : t.busy = s.busy
  cmd : t.cmd = s.cmd
  snap : t.snap = s.snap
  latency : t.latency = s.latency
  k0raw : t.k0raw = s.k0raw
  k0 : t.k0 = s.k0
  ncb : t.ncb = s.ncb
  usable : t.usable = s.usable
  outlen : t.outlen = s.outlen
  errcode : t.errcode = s.errcode

theorem SameEngine.refl (s : State) : SameEngine s s := by constructor <;> rfl

theorem SameEngine.recordAccess (s : State) (a n : Nat) : SameEngine s (s.recordAccess a n) := by
  constructor <;> simp

theorem softReset_not_busy (s : State) : s.softReset.busy = false := by
  unfold State.softReset
  split <;> rfl

/-- A register write is a soft reset, the acceptance of a command word, or leaves the engine as it is. -/
theorem writeReg_cases (s : State) (r : Reg) (v : Word) :
    (r = .ctrl ∧ v.getLsbD 1 = true ∧ s.writeReg r v = s.softReset) ∨
    (r = .cmd ∧ s.busy = false ∧
      s.writeReg r v = { s.load v (Config.latency s.freeCtr) with freeCtr := s.freeCtr + 1 }) ∨
    SameEngine s (s.writeReg r v) := by
  cases r
  case ctrl =>
    cases hv : v.getLsbD 1 with
    | true => exact .inl ⟨rfl, rfl, ctrlWrite_softReset hv s⟩
    | false =>
      rw [State.writeReg, ctrlWrite_irqEn hv]
      exact .inr (.inr { SameEngine.refl s with })
  case cmd =>
    cases hb : s.busy with
    | true =>
      rw [State.writeReg, commandWrite_busy hb]
      exact .inr (.inr { SameEngine.refl s with })
    | false => exact .inr (.inl ⟨rfl, rfl, commandWrite_idle hb v⟩)
  all_goals exact .inr (.inr { SameEngine.refl s with })

/-- An input is one of the two resets, the acceptance of a command word, or leaves the engine as it is. -/
theorem input_engine_cases {s t : State} {x : Input} (h : input s x = .next t) :
    (t.busy = false ∧ (x = .hwReset ∨ ∃ v : Word, x = .write 0x004 4 v ∧ v.getLsbD 1 = true)) ∨
    (s.busy = false ∧ ∃ w : Word, x = .write 0x00C 4 w ∧
      t = { s.load w (Config.latency s.freeCtr) with freeCtr := s.freeCtr + 1, resp := .written }) ∨
    SameEngine s t := by
  rcases input_cases h with ⟨r, -, rfl⟩ | ⟨a, n, m, -, -, rfl⟩ | ⟨r, v, rfl, rfl⟩ | ⟨a, n, m, v, -, -, rfl⟩ |
    ⟨-, rfl⟩ | ⟨rfl, rfl⟩
  · exact .inr (.inr { SameEngine.refl s with })
  · exact .inr (.inr { SameEngine.recordAccess s a n with })
  · rcases writeReg_cases s r v with ⟨rfl, hv, hw⟩ | ⟨rfl, hb, hw⟩ | hs
    · exact .inl ⟨by simp [hw, softReset_not_busy], .inr ⟨v, rfl, hv⟩⟩
    · exact .inr (.inl ⟨hb, v, rfl, by rw [hw]⟩)
    · exact .inr (.inr { hs with })
  · exact .inr (.inr { SameEngine.recordAccess s a n with })
  · exact .inr (.inr { SameEngine.refl s with })
  · exact .inl ⟨rfl, .inl rfl⟩

/-! ### The obligations -/

/-- Settles O33, by the two outcomes of `exec`: rejection with the first failing check, or effect and completion. -/
theorem everyCommandCompletesInItsRanges : Obligations.EveryCommandCompletesInItsRanges := by
  intro i s
  cases hv : validate s.cfg i s.snap with
  | some r =>
    exact ⟨_, exec_rejected hv, rfl, rfl, rfl, rfl, rfl, rfl, irq_of_done rfl, rfl, rfl, rfl, rfl, fun _ _ => rfl⟩
  | none =>
    obtain ⟨hirqEn, hparams, hsnap, hcmd, hinbox, hresp⟩ := effect_frame i s
    exact ⟨_, exec_accepted hv, rfl, rfl, rfl, effect_cfg i s, hparams, hirqEn, (irq_of_done rfl).trans hirqEn, hsnap,
      hcmd, hinbox, hresp, fun _ ha => readByte_effect_outside hv ha⟩

/-- Settles O35: neither the checks nor the effect read the live registers. -/
theorem liveParametersDoNotInterfere : Obligations.LiveParametersDoNotInterfere := by
  intro i s p
  cases hv : validate s.cfg i s.snap with
  | some r => exact ⟨_, exec_rejected hv, exec_rejected hv⟩
  | none =>
    refine ⟨_, exec_accepted hv, ?_⟩
    rw [exec_accepted (s := { s with params := p }) hv, effect_setParams]
    rfl

/-- Settles O42: every read answers without looking at the last answer, and an idle block records no access. -/
theorem readsHaveNoSideEffects : Obligations.ReadsHaveNoSideEffects := by
  refine ⟨hostRead_register, fun s => ⟨?_, rfl, rfl, ?_, rfl, rfl, ?_⟩, fun s t a n hb h => ?_⟩
  · exact BitVec.setWidth_eq_append (by decide)
  · exact BitVec.setWidth_eq_append (by decide)
  · simp only [State.readReg, State.ctrlWord]
    cases s.irqEn <;> rfl
  · have ht := hostRead_idle hb h
    refine ⟨ht, ?_⟩
    rw [ht, hostRead_resp]
    exact h.trans (congrArg _ ht)

/-- Settles O53, by what an input can do to the engine: with a command in flight no word is accepted. -/
theorem hostStepsLeaveCommand : Obligations.HostStepsLeaveCommand := by
  intro s t x rest hb hl hi h
  have hturn : s.engineTurn = false := by simp [State.engineTurn, hl, hi]
  rw [step_input hturn hi] at h
  rcases input_engine_cases h with hreset | ⟨hidle, -⟩ | he
  · exact .inr hreset
  · exact absurd (hb.symm.trans hidle) (by decide)
  · exact .inl ⟨he.busy.trans hb, he.cmd, he.snap, he.latency, he.k0raw, he.k0, he.ncb, he.usable, he.outlen⟩

/-- Settles O56: the idle engine does not move, and of the inputs only an accepted word sets BUSY. -/
theorem busyOnlyByAcceptance : Obligations.BusyOnlyByAcceptance := by
  intro s t h hs ht
  have hturn : ¬ s.engineTurn = true := by simp [engineTurn_iff, hs]
  rcases step_cases h with ⟨hm, -⟩ | ⟨hm, -⟩ | ⟨-, -, rfl⟩ | ⟨-, x, rest, hi, hx⟩
  · exact absurd hm hturn
  · exact absurd hm hturn
  · simp [hs] at ht
  · rcases input_engine_cases hx with ⟨hidle, -⟩ | ⟨-, w, rfl, rfl⟩ | he
    · simp [hidle] at ht
    · exact ⟨w, rest, hi, rfl, rfl, rfl⟩
    · simp [he.busy, hs] at ht

/-- Settles O57: a rejection never records the code 0, and of the inputs only a reset changes ERRCODE. -/
theorem errorRecordClearedOnlyBy : Obligations.ErrorRecordClearedOnlyBy := by
  intro s t h hs ht
  rcases step_cases h with ⟨hm, i, hd, he⟩ | ⟨-, d, -, rfl⟩ | ⟨-, -, rfl⟩ | ⟨-, x, rest, hi, hx⟩
  · obtain rfl := eq_clrerr_of_exec he hs ht
    exact .inl ⟨((engineTurn_iff s).1 hm).1, hd, he⟩
  · exact absurd ht (Reason.code_ne_zero _)
  · exact absurd ht hs
  · rcases input_engine_cases hx with ⟨-, rfl | ⟨v, rfl, hv⟩⟩ | ⟨-, w, -, rfl⟩ | he
    · exact .inr ⟨rest, .inl hi⟩
    · exact .inr ⟨rest, .inr ⟨v, hi, hv⟩⟩
    · exact absurd ht hs
    · exact absurd (he.errcode.symm.trans ht) hs

/-- Settles O5, by when the engine moves. -/
theorem stepRunsDecodedCommand : Obligations.StepRunsDecodedCommand :=
  fun s _ hb hturn hd _ => step_exec ((engineTurn_iff s).2 ⟨hb, hturn⟩) hd

/-- Settles O43, by what a register reads after a write to a parameter register. -/
theorem parameterRegistersStoreAllBits : Obligations.ParameterRegistersStoreAllBits := by
  intro r hr s v
  refine ⟨_, hostWrite_register s r v, ?_, fun q hq => ?_, ?_⟩
  · rw [readReg_resp, readReg_writeReg_param hr, if_pos rfl]
  · rw [readReg_resp, readReg_writeReg_param hr, if_neg hq]
  · rw [writeReg_param hr]

/-- Settles O44: the low byte zero-extended is the written word under the mask 0xFF. -/
theorem sentinelKeepsLowByte : Obligations.SentinelKeepsLowByte := by
  intro s v
  refine ⟨_, hostWrite_register s .sentinel v, ?_, fun q hq => ?_, rfl⟩
  · rw [readReg_resp, readReg_writeReg_sentinel, if_pos rfl, setWidth_lowByte]
  · rw [readReg_resp, readReg_writeReg_sentinel, if_neg hq]

/-- Settles O45: a write to a read-only register leaves the state, a read answers the constant or the parameter. -/
theorem readOnlyRegisters : Obligations.ReadOnlyRegisters := by
  refine ⟨fun r hr s v => ?_, fun s => ⟨hostRead_register s .id, hostRead_register s .capZmax,
    hostRead_register s .capEmax, hostRead_register s .capGmax, hostRead_register s .capHsize⟩, by decide⟩
  rw [hostWrite_register, writeReg_readOnly hr]

/-- Settles O46: the write is `statusWrite`, the read-back is read off bit by bit. -/
theorem statusWriteClearsOnes : Obligations.StatusWriteClearsOnes := by
  intro s v
  refine ⟨hostWrite_register s .status v, statusWord_getLsbD s 0, statusWord_getLsbD s 1, statusWord_getLsbD s 2,
    statusWord_getLsbD s 3, fun k hk => ?_⟩
  obtain ⟨j, rfl⟩ := Nat.exists_eq_add_of_le' hk
  exact statusWord_getLsbD s (j + 4)

/-- Settles O48, by the two cases of bit 1. -/
theorem ctrlWriteResetsOrEnables : Obligations.CtrlWriteResetsOrEnables := by
  refine fun s v => ⟨fun hv => ?_, fun hv => ?_⟩
  · rw [← ctrlWrite_softReset hv s]
    exact hostWrite_register s .ctrl v
  · have h := hostWrite_register s .ctrl v
    rw [State.writeReg, ctrlWrite_irqEn hv] at h
    exact h

end Sys2Proof.Machine
end

section
/-! The memories as the host reads and writes them: which accesses are legal, what a window access answers, records and
stores, and the only ways a byte of memory changes in a step. -/

namespace Sys2Proof.Machine

/-! ### Legal parameters -/

/-- The checks of a command pass exactly on its legal parameters (R193, R198). A row that selects or interleaves tests the
conditions in another order than `Legal` names them, so there each direction collects them one by one. -/
theorem validate_eq_none_iff_legal (c : Config) (i : Instr) (p : Params) : validate c i p = none ↔ Legal c i p := by
  rw [validate, firstFailing_eq_none]
  cases i
  case markf => simp [checksOf, Legal, MarkfLegal, BgZLegal, and_assoc]
  case il | dil => simp [checksOf, Legal, IlLegal, DilLegal, QmLegal, and_assoc]
  case select | rm | dm | dmCf =>
    constructor <;> simp +contextual [checksOf, Legal, RmLegal, DmLegal, SelectorLegal, BgZLegal]
  case rmil | dildm | dildmCf =>
    constructor <;> simp +contextual [checksOf, Legal, RmilLegal, DildmLegal, RmLegal, DmLegal, IlLegal, DilLegal,
      SelectorLegal, BgZLegal, QmLegal]
  all_goals simp [checksOf, Legal]

/-- The command in flight is one that was accepted on legal parameters (R47, R198). -/
theorem running_iff_legal {s : State} {i : Instr} :
    s.running = some i ↔ s.busy = true ∧ decode s.cmd = .cmd i ∧ Legal s.cfg i s.snap := by
  rw [running_eq_some, validate_eq_none_iff_legal]

/-- A byte that the command in flight writes is in the write ranges of a legal command (R200, R240). -/
theorem legal_of_flightWrites {s : State} {a : Nat} (h : anyHas s.flightWrites a = true) :
    s.busy = true ∧ ∃ i, decode s.cmd = .cmd i ∧ Legal s.cfg i s.snap ∧ anyHas (writeRanges i s.snap) a = true := by
  cases hr : s.running with
  | none => simp [State.flightWrites, hr, anyHas] at h
  | some i =>
    obtain ⟨hb, hd, hl⟩ := running_iff_legal.1 hr
    simp only [State.flightWrites, hr] at h
    exact ⟨hb, i, hd, hl, h⟩

/-! ### Legal accesses -/

/-- The accesses that have a target are those R72 and R73 allow. -/
theorem target_ok_iff {c : Config} (hc : c.Valid) {a n : Nat} :
    (∃ g, target c a n = .ok g) ↔ (n = 4 ∧ ∃ r : Reg, a = r.offset)
      ∨ ((n = 1 ∨ n = 2 ∨ n = 4) ∧ a % n = 0 ∧ ∃ m : MemId, m.start ≤ a ∧ a + n ≤ m.start + m.bytes c) := by
  constructor
  · rintro ⟨r | m, hg⟩
    · obtain ⟨hn, ha⟩ := target_register.1 hg
      exact .inl ⟨hn, r, ha⟩
    · obtain ⟨hn, hal, hin⟩ := target_window_legal hg
      exact .inr ⟨hn, hal, m, hin⟩
  · rintro (⟨hn, r, ha⟩ | ⟨hn, hal, m, hin⟩)
    · exact ⟨_, target_register.2 ⟨hn, ha⟩⟩
    · exact ⟨_, (target_window hc).2 ⟨hn, hal, hin⟩⟩

/-- A read answers exactly where the access has a target, and is a fault elsewhere (R75). -/
theorem hostRead_outcome (s : State) (a n : Nat) :
    ((∃ t, hostRead s a n = .next t) ↔ ∃ g, target s.cfg a n = .ok g)
      ∧ ((∃ f, hostRead s a n = .fault f) ↔ ¬∃ g, target s.cfg a n = .ok g) := by
  cases h : target s.cfg a n with
  | error f => simp [hostRead, h]
  | ok g => cases g <;> simp [hostRead, h]

/-- A write answers exactly where the access has a target, and is a fault elsewhere (R75). -/
theorem hostWrite_outcome (s : State) (a n : Nat) (v : Word) :
    ((∃ t, hostWrite s a n v = .next t) ↔ ∃ g, target s.cfg a n = .ok g)
      ∧ ((∃ f, hostWrite s a n v = .fault f) ↔ ¬∃ g, target s.cfg a n = .ok g) := by
  cases h : target s.cfg a n with
  | error f => simp [hostWrite, h]
  | ok g => cases g <;> simp [hostWrite, h]

theorem hostRead_window {s : State} {a n : Nat} {m : MemId} (h : target s.cfg a n = .ok (.window m)) :
    hostRead s a n = .next (s.readWindow a n) := by
  simp only [hostRead, h]

theorem hostWrite_window {s : State} {a n : Nat} {m : MemId} (h : target s.cfg a n = .ok (.window m)) (v : Word) :
    hostWrite s a n v = .next (s.writeWindow a n v) := by
  simp only [hostWrite, h]

/-! ### Bytes on the bus -/

/-- Bit `j` on the bus is bit `j % 8` of byte `j / 8` (R71, R74). -/
theorem ofBytes_getLsbD (bs : List Byte) (j : Nat) :
    (ofBytes bs).getLsbD j = (decide (j < 32) && (bs.getD (j / 8) 0).getLsbD (j % 8)) := by
  induction bs generalizing j with
  | nil => simp [ofBytes]
  | cons b rest ih =>
    simp only [ofBytes, BitVec.getLsbD_or, BitVec.getLsbD_setWidth, BitVec.getLsbD_shiftLeft, ih]
    by_cases hj : j < 8
    · simp [hj, Nat.div_eq_of_lt hj, Nat.mod_eq_of_lt hj]
    · obtain ⟨k, rfl⟩ := Nat.exists_eq_add_of_le' (Nat.le_of_not_lt hj)
      by_cases hk : k + 8 < 32
      · have hk' : k < 32 := by omega
        simp [hk, hk']
      · simp [hk]

/-- The low bytes of a word, put together again, are the word modulo `2 ^ (8 n)` (R74). -/
theorem ofBytes_extract (v : Word) (n : Nat) :
    ofBytes ((List.range n).map fun k => v.extractLsb' (8 * k) 8) = BitVec.ofNat 32 (v.toNat % 2 ^ (8 * n)) := by
  ext j hj
  rw [← BitVec.getLsbD_eq_getElem, ofBytes_getLsbD, ← BitVec.getLsbD_eq_getElem, BitVec.getLsbD_ofNat,
    Nat.testBit_mod_two_pow, BitVec.testBit_toNat]
  by_cases hn : j / 8 < n
  · have hlane : 8 * (j / 8) + j % 8 = j := Nat.div_add_mod j 8
    have hlt : j < 8 * n := by omega
    simp [hn, hlt, hlane, Nat.mod_lt]
  · have hge : ¬ j < 8 * n := by omega
    simp [hn, hge]

/-- The low lane of a 16-bit element is its first byte (R71). -/
theorem lowLane_half (m : Memory) (x : MemId) (i : Nat) :
    (m.half x i).extractLsb' 0 8 = m.readByte (x.addr i) :=
  BitVec.extractLsb'_append_eq_right

/-- The high lane of a 16-bit element is its second byte (R71). -/
theorem highLane_half (m : Memory) (x : MemId) (i : Nat) :
    (m.half x i).extractLsb' 8 8 = m.readByte (x.addr i + 1) :=
  BitVec.extractLsb'_append_eq_left

/-! ### Window accesses -/

/-- With no command in flight a window read answers the stored bytes and changes nothing else (R77). -/
theorem readWindow_idle {s : State} (h : s.busy = false) (a n : Nat) :
    s.readWindow a n = { s with resp := .data (ofBytes ((List.range n).map fun k => s.mem.readByte (a + k))) } := by
  simp [State.readWindow, recordAccess_idle h, State.accessBytes, flightRanges_idle h, anyHas]

/-- With no command in flight a window write stores its bytes and changes no register (R74). -/
theorem writeWindow_idle {s : State} (h : s.busy = false) (a n : Nat) (v : Word) :
    s.writeWindow a n v = { s with mem := (s.writeWindow a n v).mem, resp := .written } := by
  simp only [State.writeWindow, recordAccess_idle h]

/-- What each byte reads as after a window write with no command in flight (R74). -/
theorem readByte_writeWindow_idle {s : State} (h : s.busy = false) (a n b : Nat) (v : Word) :
    (s.writeWindow a n v).mem.readByte b
      = if a ≤ b ∧ b < a + n then v.extractLsb' (8 * (b - a)) 8 else s.mem.readByte b := by
  simp [readByte_writeWindow, flightRanges_idle h, anyHas]

/-- A window read changes no field but the hazard, the free values' counter and the answer. -/
theorem readWindow_frame (s : State) (a n : Nat) :
    s.readWindow a n = { s with
      hazard := (s.readWindow a n).hazard, freeCtr := (s.readWindow a n).freeCtr, resp := (s.readWindow a n).resp } := by
  simp [State.readWindow]

/-- A window write changes no field but the hazard, the free values' counter, memory and the answer. -/
theorem writeWindow_frame (s : State) (a n : Nat) (v : Word) :
    s.writeWindow a n v = { s with
      hazard := (s.writeWindow a n v).hazard, freeCtr := (s.writeWindow a n v).freeCtr,
      mem := (s.writeWindow a n v).mem, resp := .written } := by
  simp [State.writeWindow]

/-- An access to bytes `d` on of a 16-bit element that stays inside it is inside its memory (R70, R72). -/
theorem target_half {c : Config} (hc : c.Valid) {x : MemId} {i d n : Nat} (hx : x.esz = 2) (hi : i < x.elems c)
    (hn : n = 1 ∨ n = 2) (hd : d + n ≤ 2) (hal : d % n = 0) : target c (x.addr i + d) n = .ok (.window x) := by
  refine (target_window hc).2 ?_
  have hstart : x.start % 2 = 0 := by cases x <;> rfl
  simp only [MemId.addr, MemId.bytes, hx]
  rcases hn with rfl | rfl <;> omega

/-! ### What a step changes -/

/-- A register write leaves the memories, unless it is a soft reset (R28, R232). -/
theorem writeReg_mem (s : State) (r : Reg) (v : Word) :
    (s.writeReg r v).mem = s.mem ∨ (r = .ctrl ∧ v.getLsbD 1 = true ∧ s.writeReg r v = s.softReset) := by
  cases r
  case ctrl =>
    cases hv : v.getLsbD 1 with
    | true => exact .inr ⟨rfl, rfl, ctrlWrite_softReset hv s⟩
    | false => exact .inl (by rw [State.writeReg, ctrlWrite_irqEn hv])
  case cmd => exact .inl (by simp only [State.writeReg, State.commandWrite]; split <;> rfl)
  all_goals exact .inl rfl

/-- A soft reset frees the bytes the command in flight writes, and leaves every other (R232). -/
theorem readByte_softReset (s : State) (a : Nat) :
    s.softReset.mem.readByte a = if anyHas s.flightWrites a then Config.freeByte s.freeCtr a else s.mem.readByte a := by
  cases hb : s.busy with
  | false => simp [softReset_idle hb, flightWrites_idle hb, anyHas]
  | true => simp [softReset_busy hb, Memory.readByte_scramble]

/-- An input changes a byte of memory only as a soft reset that frees it, as a window write that covers it, or as the
hardware reset (R75, R231, R232). -/
theorem input_changes_byte {s t : State} {x : Input} {a : Nat} (h : input s x = .next t)
    (ha : t.mem.readByte a ≠ s.mem.readByte a) :
    (anyHas s.flightWrites a = true ∧ ∃ v : Word, x = .write 0x004 4 v ∧ v.getLsbD 1 = true) ∨
    (∃ b n v, x = .write b n v ∧ b ≤ a ∧ a < b + n ∧ ∃ m : MemId, m.start ≤ b ∧ b + n ≤ m.start + m.bytes s.cfg) ∨
    x = .hwReset := by
  rcases input_cases h with ⟨r, -, rfl⟩ | ⟨b, n, m, -, -, rfl⟩ | ⟨r, v, rfl, rfl⟩ | ⟨b, n, m, v, rfl, hw, rfl⟩ |
    ⟨-, rfl⟩ | ⟨rfl, rfl⟩
  · exact absurd rfl ha
  · exact absurd (congrArg (Memory.readByte · a) (s.recordAccess_mem b n)) ha
  · rcases writeReg_mem s r v with hm | ⟨rfl, hv, hw⟩
    · exact absurd (congrArg (Memory.readByte · a) hm) ha
    · have hf : anyHas s.flightWrites a = true := by
        by_contra hf
        exact ha (by simp only [hw, readByte_softReset, if_neg hf])
      exact .inl ⟨hf, v, rfl, hv⟩
  · have hin : b ≤ a ∧ a < b + n := by
      by_contra hin
      exact ha (by rw [readByte_writeWindow, if_neg hin])
    obtain ⟨-, -, hm⟩ := target_window_legal hw
    exact .inr (.inl ⟨b, n, v, rfl, hin.1, hin.2, m, hm⟩)
  · exact absurd rfl ha
  · exact .inr (.inr rfl)

/-- A command's completion changes a byte only where the command is legal and writes it (R60, R66, R200). -/
theorem exec_changes_byte {i : Instr} {s t : State} {a : Nat} (h : exec i s = .next t)
    (ha : t.mem.readByte a ≠ s.mem.readByte a) : Legal s.cfg i s.snap ∧ anyHas (writeRanges i s.snap) a = true := by
  cases hv : validate s.cfg i s.snap with
  | some r =>
    rw [exec_rejected hv] at h
    obtain rfl := Host.Outcome.next.inj h
    exact absurd rfl ha
  | none =>
    rw [exec_accepted hv] at h
    obtain rfl := Host.Outcome.next.inj h
    refine ⟨(validate_eq_none_iff_legal _ _ _).1 hv, ?_⟩
    by_contra hw
    exact ha (readByte_effect_outside hv (Bool.eq_false_of_not_eq_true hw))

/-- The idle block's step changes nothing when the host has no access left (R230). -/
theorem step_idle {s : State} (hb : s.busy = false) (hi : s.inbox = []) : step s = .next s := by
  simp [step, State.engineTurn, hb, hi]

/-! ### The obligations -/

/-- Settles O58, by what a completion and what an input can change. -/
theorem memoryChangesOnlyBy : Obligations.MemoryChangesOnlyBy := by
  intro s t a h ha
  rcases step_cases h with ⟨hm, i, hd, he⟩ | ⟨-, d, -, rfl⟩ | ⟨-, -, rfl⟩ | ⟨-, x, rest, hi, hx⟩
  · obtain ⟨hl, hw⟩ := exec_changes_byte he ha
    exact .inl ⟨((engineTurn_iff s).1 hm).1, i, hd, hl, hw, .inl he⟩
  · exact absurd rfl ha
  · exact absurd rfl ha
  · rcases input_changes_byte hx ha with ⟨hf, v, rfl, hv⟩ | ⟨b, n, v, rfl, hlo, hhi, hm⟩ | rfl
    · obtain ⟨hb, i, hd, hl, hw⟩ := legal_of_flightWrites hf
      exact .inl ⟨hb, i, hd, hl, hw, .inr ⟨v, rest, hi, hv⟩⟩
    · exact .inr (.inl ⟨b, n, v, rest, hi, hlo, hhi, hm⟩)
    · exact .inr (.inr ⟨rest, hi⟩)

/-- Settles O39: an access answers exactly where it has a target. -/
theorem illegalAccessesAreBusErrors : Obligations.IllegalAccessesAreBusErrors := by
  intro s a n v hc legal
  have hlegal : (∃ g, target s.cfg a n = .ok g) ↔ legal := target_ok_iff hc
  rw [← hlegal]
  obtain ⟨hread, hreadFault⟩ := hostRead_outcome s a n
  obtain ⟨hwrite, hwriteFault⟩ := hostWrite_outcome s a n v
  exact ⟨hread, hreadFault, hwrite, hwriteFault⟩

/-- Settles O40: with no command in flight the write stores the data's bytes, and the read puts them together again. -/
theorem windowWriteReadsBack : Obligations.WindowWriteReadsBack := by
  intro s a n v m hc hb hn hal hlo hhi
  have ht : target s.cfg a n = .ok (.window m) := (target_window hc).2 ⟨hn, hal, hlo, hhi⟩
  have ht' : target (s.writeWindow a n v).cfg a n = .ok (.window m) := by rwa [State.writeWindow, State.recordAccess_cfg]
  have hb' : (s.writeWindow a n v).busy = false := (s.recordAccess_busy a n).trans hb
  have hstored : ∀ k < n, (s.writeWindow a n v).mem.readByte (a + k) = v.extractLsb' (8 * k) 8 := fun k hk => by
    rw [readByte_writeWindow_idle hb, if_pos (by omega), Nat.add_sub_cancel_left]
  refine ⟨_, _, hostWrite_window ht v, hostRead_window ht', hstored, ?_, fun b hout => ?_, writeWindow_idle hb a n v, ?_⟩
  · rw [readWindow_idle hb', ← ofBytes_extract]
    exact congrArg (fun bs => BusResp.data (ofBytes bs)) (List.map_congr_left fun k hk => hstored k (List.mem_range.1 hk))
  · rw [readByte_writeWindow_idle hb, if_neg (by omega)]
  · rw [readWindow_idle hb']

/-- Settles O41, by the two bytes of the element after the write. -/
theorem byteLanesOfHalfElements : Obligations.ByteLanesOfHalfElements := by
  intro s x i v hc hb hx hi
  have haddr : x.start + 2 * i = x.addr i := by rw [MemId.addr, hx]
  have hwrite : ∀ d n, (n = 1 ∨ n = 2) → d + n ≤ 2 → d % n = 0 →
      hostWrite s (x.addr i + d) n v = .next (s.writeWindow (x.addr i + d) n v) :=
    fun d n hn hd hal => hostWrite_window (target_half hc hx hi hn hd hal) v
  have hlanes : v.extractLsb' 8 8 ++ v.extractLsb' 0 8 = v.extractLsb' 0 16 :=
    BitVec.extractLsb'_append_extractLsb'_eq_extractLsb' rfl
  rw [haddr]
  refine ⟨⟨_, hwrite 0 2 (by omega) (by omega) rfl, ?_⟩, ⟨_, hwrite 0 1 (by omega) (by omega) rfl, ?_⟩,
    ⟨_, hwrite 1 1 (by omega) (by omega) rfl, ?_⟩⟩
  · simpa [Memory.half, Memory.readHalf, readByte_writeWindow_idle hb] using hlanes
  · rw [highLane_half]
    simp [Memory.half, Memory.readHalf, readByte_writeWindow_idle hb]
  · rw [lowLane_half]
    simp [Memory.half, Memory.readHalf, readByte_writeWindow_idle hb]

/-- Settles O54, by what a window access records, answers and stores on the ranges in flight. -/
theorem hazardRecorded : Obligations.HazardRecorded := by
  intro s i m a n v hc hb hd hl hn hal hlo hhi ranges touched
  have ht : target s.cfg a n = .ok (.window m) := (target_window hc).2 ⟨hn, hal, hlo, hhi⟩
  have hranges : s.flightRanges = ranges := flightRanges_of_running (running_iff_legal.2 ⟨hb, hd, hl⟩)
  have htouched : touches s.flightRanges a n = true ↔ touched := by rw [hranges]; exact touches_iff ranges a n
  have hhazard : (s.recordAccess a n).hazard = true ↔ s.hazard = true ∨ touched := by
    rw [State.recordAccess_hazard, Bool.or_eq_true, htouched]
  have hquiet : ¬touched → (s.recordAccess a n).freeCtr = s.freeCtr := fun h => by
    rw [State.recordAccess_freeCtr, if_neg (mt htouched.1 h)]
  have hfresh : touched → (s.recordAccess a n).freeCtr = s.freeCtr + 1 := fun h => by
    rw [State.recordAccess_freeCtr, if_pos (htouched.2 h)]
  refine ⟨_, _, hostRead_window ht, hostWrite_window ht v, hhazard, hhazard, fun h => ⟨hquiet h, hquiet h⟩,
    fun h => ⟨hfresh h, hfresh h⟩, readWindow_frame s a n, ?_, writeWindow_frame s a n v, fun b => ?_⟩
  · rw [← hranges]
    rfl
  · rw [← hranges]
    exact readByte_writeWindow s a n b v

/-- Settles O7, by when the engine moves. -/
theorem stepMakesNextAccess : Obligations.StepMakesNextAccess := by
  refine ⟨fun s x rest hturn hi => step_input ?_ hi, fun _ hb hi => step_idle hb hi⟩
  rw [← Bool.not_eq_true, engineTurn_iff]
  rintro ⟨hb, hl | hempty⟩
  · simp [hb, hl] at hturn
  · simp [hi] at hempty

end Sys2Proof.Machine
end

section
/-! The command words: decode and encode invert each other, the words that are illegal and why, the checks of each
command, and the engine's side of the poll loop. -/

namespace Sys2Proof

/-! ### Decode and encode -/

/-- Each command's row of the opcode table, gathered (R86, R90 to R92). -/
theorem encoding_statement (i : Instr) : Laws.Encoding.Statement i := by
  open Laws.Encoding in
  cases i
  exacts [nop, select, markf, rm, rmSkip, dm, dmCf, dmSkip, il, ilSkip, dil, dilSkip, rmil, rmilSkip, dildm, dildmCf,
    dildmSkip, clrerr]

theorem instr_wellFormed (i : Instr) : i.WellFormed := (encoding_statement i).1

@[simp] theorem fieldsOf_encode (i : Instr) : fieldsOf (encode i) = i.fields := (encoding_statement i).2.1

@[simp] theorem decode_encode (i : Instr) : decode (encode i) = .cmd i := (encoding_statement i).2.2

/-- Equal slices of two words have equal bits. -/
theorem getLsbD_of_extractLsb'_eq {v w : Word} {start len : Nat} (h : v.extractLsb' start len = w.extractLsb' start len)
    {k : Nat} (hlo : start ≤ k) (hhi : k < start + len) : v.getLsbD k = w.getLsbD k := by
  have hbit := congrArg (BitVec.getLsbD · (k - start)) h
  have hin : k - start < len := by omega
  simpa [hin, Nat.add_sub_cancel' hlo] using hbit

/-- The fields of R86 cover the word: bits 3:0, 7:4, 8, 9 and 31:10. -/
theorem fieldsOf_injective : Function.Injective fieldsOf := by
  intro v w h
  obtain ⟨hop, hrsva, hcf, hskip, hrsvb⟩ := Fields.mk.inj h
  refine BitVec.eq_of_getLsbD_eq fun k hk => ?_
  rcases (by omega : k < 4 ∨ (4 ≤ k ∧ k < 8) ∨ k = 8 ∨ k = 9 ∨ 10 ≤ k) with h | ⟨hlo, hhi⟩ | rfl | rfl | hlo
  · exact getLsbD_of_extractLsb'_eq hop (Nat.zero_le k) (by omega)
  · exact getLsbD_of_extractLsb'_eq hrsva hlo hhi
  · exact hcf
  · exact hskip
  · exact getLsbD_of_extractLsb'_eq hrsvb hlo (by omega)

/-- A word is a command exactly when its fields are legal (R91). -/
theorem exists_cmd_iff_wellFormed (w : Word) : (∃ i, decode w = .cmd i) ↔ (fieldsOf w).WellFormed := by
  have hill := decode_eq_illegal w
  cases hd : decode w with
  | cmd i =>
    refine iff_of_true ⟨i, rfl⟩ (Option.eq_none_iff_forall_ne_some.2 fun d hd' => ?_)
    simpa [hd] using (hill d).2 hd'
  | illegal d => simp [Fields.WellFormed, (hill d).1 hd]

/-- With the reserved bits zero the command found has the word's opcode and flags (R86, R89). -/
theorem flags_of_decodeFields {op : BitVec 4} {cf skip : Bool} {i : Instr}
    (h : decodeFields { op, rsva := 0, cf, skip, rsvb := 0 } = .cmd i) : op = i.op ∧ cf = i.cf ∧ skip = i.skip := by
  revert op cf skip
  cases i <;> decide

/-- The decoder finds a command only in the fields of that command's word. -/
theorem fields_eq_of_decodeFields {f : Fields} {i : Instr} (h : decodeFields f = .cmd i) : f = i.fields := by
  obtain ⟨op, rsva, cf, skip, rsvb⟩ := f
  have hrsv : rsva = 0 ∧ rsvb = 0 := by
    by_contra hne
    rw [decodeFields, if_pos (not_and_or.1 hne)] at h
    split at h <;> cases h
  obtain ⟨rfl, rfl⟩ := hrsv
  obtain ⟨hop, hcf, hskip⟩ := flags_of_decodeFields h
  rw [Instr.fields, hop, hcf, hskip]

/-- Only a command's own word decodes to it (R94). -/
theorem decode_eq_cmd_iff {w : Word} {i : Instr} : decode w = .cmd i ↔ w = encode i := by
  constructor
  · intro h
    rw [decode_eq_decodeFields] at h
    exact fieldsOf_injective ((fields_eq_of_decodeFields h).trans (fieldsOf_encode i).symm)
  · rintro rfl
    exact decode_encode i

/-! ### The conditions of R91 -/

/-- CF is permitted only where SKIP is too (R90). -/
theorem permitsSkip_of_permitsCf {f : Fields} (h : f.permitsCf = true) : f.permitsSkip = true := by
  simp only [Fields.permitsCf, Bool.or_eq_true, beq_iff_eq] at h
  rcases h with h | h <;> simp [Fields.permitsSkip, h]

section
variable (f : Fields)

theorem illegality_rsvOp : f.illegality = some .rsvOp ↔ 0xA ≤ f.op.toNat := by
  unfold Fields.illegality
  split_ifs <;> simp [*]

/-- Reserved bits count where the opcode is not reserved. -/
theorem illegality_rsvBits :
    f.illegality = some .rsvBits ↔ f.op.toNat < 0xA ∧ (f.rsva ≠ 0 ∨ f.rsvb ≠ 0) := by
  unfold Fields.illegality
  split_ifs <;> grind

/-- A flag that is not permitted counts where neither the opcode nor a bit is reserved. -/
theorem illegality_badFlag :
    f.illegality = some .badFlag ↔ f.op.toNat < 0xA ∧ f.rsva = 0 ∧ f.rsvb = 0
      ∧ ((f.cf = true ∧ f.permitsCf = false) ∨ (f.skip = true ∧ f.permitsSkip = false)) := by
  unfold Fields.illegality
  split_ifs <;> grind

/-- Of two flags set together CF alone needs a look at its permission: where it is permitted, so is SKIP. -/
theorem illegality_cfSkip :
    f.illegality = some .cfSkip ↔ f.op.toNat < 0xA ∧ f.rsva = 0 ∧ f.rsvb = 0
      ∧ f.cf = true ∧ f.skip = true ∧ f.permitsCf = true := by
  have hperm := permitsSkip_of_permitsCf (f := f)
  unfold Fields.illegality
  split_ifs <;> grind

end

/-- The legal words are the commands' words (R92). -/
theorem exists_cmd_iff_mem_encode (w : Word) : (∃ i, decode w = .cmd i) ↔ w ∈ Instr.all.map encode := by
  have hall : ∀ i : Instr, i ∈ Instr.all := fun i => by cases i <;> decide
  simp only [decode_eq_cmd_iff, List.mem_map, hall, true_and, eq_comm]

end Sys2Proof

namespace Sys2Proof.Machine

/-! ### The rows of checks -/

section
variable (c : Config) (p : Params)

theorem firstFailing_cons (k : Check) (rest : List Check) :
    firstFailing c p (k :: rest) = raiseIf (k.fails c p = true) k.reason (firstFailing c p rest) := rfl

theorem firstFailing_nil : firstFailing c p [] = none := rfl

end

/-- Two conditions with one error are two checks with it: how a BUF check is written out bound by bound (R196). -/
theorem raiseIf_or (a b : Prop) [Decidable a] [Decidable b] (r : Reason) (rest : Option Reason) :
    raiseIf (a ∨ b) r rest = raiseIf a r (raiseIf b r rest) := by
  by_cases ha : a <;> simp [raiseIf, ha]

/-! ### The engine -/

/-- When the engine moves and its word is illegal, the word is rejected (R88, R91). -/
theorem step_reject {s : State} {d : Illegal} (ht : s.engineTurn = true) (hd : decode s.cmd = .illegal d) :
    step s = .next (s.reject (.illegalCommand d)) := by
  simp only [step, ht, if_true, engineStep, hd]

/-- A command with SKIP = 1 checks nothing (R87, R197). -/
theorem exec_skip {i : Instr} (h : i.skip = true) (s : State) : exec i s = .next s.skipped := by
  cases i
  case rmSkip | dmSkip | ilSkip | dilSkip | rmilSkip | dildmSkip => rfl
  all_goals cases h

/-- When the engine moves, its command completes, legal or not, and the host's accesses stay (R97, R199, R251). -/
theorem step_completes {s : State} (ht : s.engineTurn = true) :
    ∃ t, step s = .next t ∧ t.busy = false ∧ t.done = true ∧ t.inbox = s.inbox := by
  cases hd : decode s.cmd with
  | cmd i =>
    obtain ⟨t, he, hb, hdone, -, -, -, -, -, -, -, hi, -⟩ := everyCommandCompletesInItsRanges i s
    exact ⟨t, (step_exec ht hd).trans he, hb, hdone, hi⟩
  | illegal d => exact ⟨_, step_reject ht hd, rfl, rfl, rfl⟩

/-- A poll answers STATUS, and stays on the list while it reads BUSY = 1 (R97). -/
theorem step_wait {s : State} {rest : List Input} (ht : s.engineTurn = false) (hi : s.inbox = .wait :: rest) :
    step s = .next { s with
      latency := s.latency - 1, inbox := if s.busy then s.inbox else rest, resp := .data s.statusWord } := by
  rw [step_input ht hi, hi]
  rfl

/-- While BUSY a poll brings the command one host step nearer its completion (R97, R250). -/
theorem step_wait_busy {s : State} {n : Nat} {rest : List Input} (hb : s.busy = true) (hl : s.latency = n + 1)
    (hi : s.inbox = .wait :: rest) : step s = .next { s with latency := n, resp := .data s.statusWord } := by
  rw [step_wait (by simp [State.engineTurn, hl, hi]) hi, if_pos hb, hl, Nat.add_sub_cancel]

/-- A poll that reads BUSY = 0 leaves the loop (R97). -/
theorem step_wait_idle {s : State} {rest : List Input} (hb : s.busy = false) (hi : s.inbox = .wait :: rest) :
    step s = .next { s with latency := s.latency - 1, inbox := rest, resp := .data s.statusWord } := by
  rw [step_wait (by simp [State.engineTurn, hb]) hi, if_neg (by simp [hb])]

theorem run_succ {s t : State} (h : step s = .next t) (k : Nat) : core.run (k + 1) s = core.run k t := by
  have hstep : core.step s = .next t := h
  simp only [Host.Core.run, hstep]

/-- The polls that read BUSY = 1 count the latency down, and the command then completes with WAIT still to do (R97,
R251). -/
theorem run_wait {s : State} (hb : s.busy = true) (hi : s.inbox = [.wait]) :
    ∃ t, core.run (s.latency + 1) s = .next t ∧ t.busy = false ∧ t.done = true ∧ t.inbox = [.wait] := by
  generalize hn : s.latency = n
  induction n generalizing s with
  | zero =>
    obtain ⟨t, hstep, hbt, hdone, hit⟩ := step_completes ((engineTurn_iff s).2 ⟨hb, .inl hn⟩)
    exact ⟨t, run_succ hstep 0, hbt, hdone, hit.trans hi⟩
  | succ n ih =>
    rw [run_succ (step_wait_busy hb hn hi)]
    exact ih hb hi rfl

/-! ### The obligations -/

/-- Settles O2: a word's fields determine it, and the decoder finds a command only in the fields of its word. -/
theorem decodeInvertsEncode : Obligations.DecodeInvertsEncode :=
  ⟨fun i => ⟨instr_wellFormed i, decode_encode i⟩, fun _ _ => decode_eq_cmd_iff.1⟩

/-- Settles O3: the decoder rejects with the fields' first illegality, which is one lemma per condition. -/
theorem illegalWordsInOrder : Obligations.IllegalWordsInOrder := by
  intro w
  simp only [decode_eq_illegal]
  exact ⟨illegality_rsvOp _, illegality_rsvBits _, illegality_badFlag _, illegality_cfSkip _,
    exists_cmd_iff_wellFormed w⟩

/-- Settles O4: the listed words are the commands' words, in the table's order. -/
theorem eighteenLegalWords : Obligations.EighteenLegalWords := by
  unfold Obligations.EighteenLegalWords
  intro words
  have hwords : words = Instr.all.map encode := rfl
  refine ⟨fun w => ?_, by decide, rfl, by decide⟩
  rw [hwords]
  exact exists_cmd_iff_mem_encode w

/-- Settles O30: each row of `checksOf`, check by check. -/
theorem checksInOrder : Obligations.ChecksInOrder := by
  intro conf p bg z rv c qm ez eq fe fn bufE bufOut bufRx bufHarq nu sn fr
  have hunchecked : ∀ i ∈ [Instr.nop, .clrerr, .rmSkip, .dmSkip, .ilSkip, .dilSkip, .rmilSkip, .dildmSkip],
      validate conf i p = none := fun i hi => by fin_cases hi <;> rfl
  refine ⟨?_, ?_, ?_, ?_, rfl, ?_, ?_, ?_, ?_, rfl, hunchecked⟩
  all_goals
    simp [validate, checksOf, firstFailing_cons, firstFailing_nil, raiseIf_or, Check.fails, Check.reason, Bound.fails,
      and_assoc, bg, z, rv, c, qm, ez, eq, fe, fn, bufE, bufOut, bufRx, bufHarq, nu, sn, fr]

/-- Settles O55: the polls count the latency down, the command completes, and the next poll leaves the loop. -/
theorem waitLoopEnds : Obligations.WaitLoopEnds := by
  intro s hb hi
  obtain ⟨t, hrun, hbt, hdone, hit⟩ := run_wait hb hi
  exact ⟨t, _, hrun, hbt, hdone, step_wait_idle hbt hit, rfl, rfl, (statusWord_getLsbD _ 0).trans hbt⟩

/-- Settles O1, by running the decoder on the sixteen words. -/
theorem tableWordsDecode : Obligations.TableWordsDecode := by
  unfold Obligations.TableWordsDecode
  decide

/-- Settles O6: the rejection of an illegal word, with the code of each detail. -/
theorem stepRejectsIllegalWord : Obligations.StepRejectsIllegalWord := by
  intro s d hb hturn hd
  rw [step_reject ((engineTurn_iff s).2 ⟨hb, hturn⟩) hd]
  cases d <;> rfl

/-- Settles O10: the six commands are those with SKIP = 1. -/
theorem skipCommandsChangeNothing : Obligations.SkipCommandsChangeNothing := by
  intro i hi s
  have hskip : i.skip = true := by fin_cases hi <;> rfl
  exact exec_skip hskip s

/-- Settles O47: the write is `commandWrite`, by whether the block is busy; CMD reads 0. -/
theorem commandWordAcceptedOrDropped : Obligations.CommandWordAcceptedOrDropped := by
  intro s w
  have hwrite : hostWrite s 0x00C 4 w = .next { s.commandWrite w with resp := .written } := hostWrite_register s .cmd w
  refine ⟨fun hb => ?_, fun hb => ?_, hostRead_register s .cmd⟩
  · rw [hwrite, commandWrite_busy hb]
  · rw [commandWrite_idle hb] at hwrite
    exact ⟨_, hwrite, rfl⟩

end Sys2Proof.Machine
end

section
/-! The selector: the selection sequence is the pass `L` repeated without end, and the loop of R113 walks the circular
buffer once for each repetition. -/

namespace Sys2Proof.Machine

/-! ### The table -/

/-- For a base graph that exists the table has its own row (R107). -/
theorem k0Tab_eq_getD (c : Config) {bg : Nat} (h : bg = 1 ∨ bg = 2) (rv : Nat) :
    c.k0Tab bg rv = (if bg = 1 then c.k0tab1 else c.k0tab2).getD rv 0 := by
  rcases h with rfl | rfl <;> rfl

theorem selK0raw_of_empty {c : Config} {p : Params} (h : selNcb p = 0) : selK0raw c p = 0 := by
  simp [selK0raw, h]

/-! ### Periodic lists -/

/-- Listing a periodic function over whole periods repeats the list of one period. -/
theorem map_range_periodic {α : Type} {f : Nat → α} {m : Nat} (hf : Function.Periodic f m) (q : Nat) :
    (List.range (q * m)).map f = (List.replicate q ((List.range m).map f)).flatten := by
  induction q with
  | zero => simp
  | succ q ih =>
    have hshift : ∀ j, f (q * m + j) = f j := fun j => by
      rw [Nat.add_comm]
      exact hf.nat_mul q j
    rw [Nat.succ_mul, List.range_add, List.map_append, ih, List.map_map, List.replicate_succ', List.flatten_append,
      List.flatten_singleton]
    simp [Function.comp_def, hshift]

/-! ### One pass -/

/-- One pass visits the circular buffer once from the start index on, and keeps what is not filler (R113). -/
theorem selOnePass_eq_filter_mod (c : Config) (p : Params) :
    selOnePass c p
      = ((List.range (selNcb p)).map fun k => (selK0 c p + k) % selNcb p).filter fun i => !inFiller p i := by
  have hk := selK0_le c p
  rw [selOnePass]
  generalize selK0 c p = k0 at hk
  obtain ⟨d, hd⟩ := Nat.exists_eq_add_of_le' hk
  rw [hd, Nat.add_sub_cancel, List.range_add, List.map_append, List.map_map, List.range'_eq_map_range]
  congr 2
  · exact List.map_congr_left fun j hj => (Nat.mod_eq_of_lt (by rw [List.mem_range] at hj; omega)).symm
  · refine (List.map_id _).symm.trans (List.map_congr_left fun j hj => ?_)
    rw [List.mem_range] at hj
    have hwrap : k0 + (d + j) = j + (d + k0) := by omega
    rw [Function.comp_apply, hwrap, Nat.add_mod_right, Nat.mod_eq_of_lt (by omega), id_eq]

/-- A usable start index is the first of the pass (R113). -/
theorem selOnePass_eq_cons {c : Config} {p : Params} (hn : 1 ≤ selNcb p) (hk : inFiller p (selK0 c p) = false) :
    ∃ rest, selOnePass c p = selK0 c p :: rest := by
  have hlt := selK0_lt (c := c) hn
  obtain ⟨d, hd⟩ := Nat.exists_eq_add_of_lt hlt
  have hlen : selNcb p - selK0 c p = d + 1 := by omega
  rw [selOnePass, hlen, List.range'_succ, List.cons_append, List.filter_cons_of_pos (by simp [hk])]
  exact ⟨_, rfl⟩

section
variable {c : Config} {p : Params}

theorem selNcb_pos (h : SelectorLegal c p) : 1 ≤ selNcb p := by
  obtain ⟨-, -, -, -, -, -, hu⟩ := h
  exact hu.trans (selU_le_selNcb p)

theorem selOnePass_length_of_legal (h : SelectorLegal c p) : (selOnePass c p).length = selU p := by
  obtain ⟨-, -, -, -, -, hfn, -⟩ := h
  exact selOnePass_length hfn

/-- A selected index is a usable one of the buffer (R114 a, b). -/
theorem sel_usable (h : SelectorLegal c p) (j : Nat) : sel c p j < selNcb p ∧ inFiller p (sel c p j) = false := by
  have hlen := selOnePass_length_of_legal h
  obtain ⟨-, -, -, -, -, -, hu⟩ := h
  exact (mem_selOnePass c p _).1 (sel_mem (by omega) j)

/-- The start index is usable: a wrap to 0 into the filler region would leave no usable index (R111, R112, R114 e). -/
theorem selK0_usable (hc : c.Valid) (h : SelectorLegal c p) : inFiller p (selK0 c p) = false := by
  have hraw : selK0raw c p < selNcb p := selK0raw_lt hc (selNcb_pos h)
  obtain ⟨-, -, -, -, -, -, hu⟩ := h
  rw [inFiller_eq_false]
  simp only [selK0, selAdvanced, selU, inFiller_eq_true] at hu ⊢
  split_ifs <;> omega

/-! ### The sequence repeats the pass -/

/-- The selection sequence has period `U` (R114 c). -/
theorem sel_periodic (h : SelectorLegal c p) : Function.Periodic (sel c p) (selU p) := fun j => by
  rw [sel, sel, selOnePass_length_of_legal h, Nat.add_mod_right]

theorem map_sel_range_selU (h : SelectorLegal c p) : (List.range (selU p)).map (sel c p) = selOnePass c p := by
  have hlen := selOnePass_length_of_legal h
  refine List.ext_getElem (by simp [hlen]) fun j _ hj => ?_
  rw [List.getElem_map, List.getElem_range, sel, Nat.mod_eq_of_lt hj, List.getD_eq_getElem _ _ hj]

theorem map_sel_range_passes (h : SelectorLegal c p) (q : Nat) :
    (List.range (q * selU p)).map (sel c p) = (List.replicate q (selOnePass c p)).flatten := by
  rw [map_range_periodic (sel_periodic h), map_sel_range_selU h]

theorem hits_length_eq_count (c : Config) (p : Params) (i : Nat) :
    (hits c p i).length = ((List.range p.eN).map (sel c p)).count i := by
  rw [hits, ← List.countP_eq_length_filter, List.count, List.countP_map]
  rfl

/-- Each full pass below `E` selects every usable index once (R114 d). -/
theorem passes_le_hits_length (h : SelectorLegal c p) {i : Nat} (hi : i < selNcb p) (hf : inFiller p i = false) :
    p.eN / selU p ≤ (hits c p i).length := by
  have hone : (selOnePass c p).count i = 1 :=
    List.count_eq_one_of_mem (selOnePass_nodup c p) ((mem_selOnePass c p i).2 ⟨hi, hf⟩)
  have hsub : (List.range (p.eN / selU p * selU p)).Sublist (List.range p.eN) :=
    List.range_sublist.2 (Nat.div_mul_le_self _ _)
  calc p.eN / selU p = ((List.range (p.eN / selU p * selU p)).map (sel c p)).count i := by
        rw [map_sel_range_passes h, List.count_flatten, List.map_replicate, hone, List.sum_replicate, smul_eq_mul,
          mul_one]
    _ ≤ ((List.range p.eN).map (sel c p)).count i := (hsub.map _).count_le i
    _ = (hits c p i).length := (hits_length_eq_count c p i).symm

/-! ### The loop -/

/-- The loop keeps the usable ones of the positions it visits, counted around the buffer, until none is left to select
(R113). -/
theorem selLoop_eq_take (hn : 1 ≤ selNcb p) (fuel a left : Nat) :
    selLoop c p fuel (a % selNcb p) left
      = (((List.range' a fuel).map fun k => k % selNcb p).filter fun i => !inFiller p i).take left := by
  induction fuel generalizing a left with
  | zero => cases left <;> simp [selLoop]
  | succ fuel ih =>
    cases left with
    | zero => simp [selLoop]
    | succ left =>
      have hnext : (if a % selNcb p + 1 = selNcb p then 0 else a % selNcb p + 1) = (a + 1) % selNcb p := by
        have hlt : a % selNcb p < selNcb p := Nat.mod_lt _ hn
        rw [← Nat.mod_add_mod]
        split
        · next h => rw [h, Nat.mod_self]
        · exact (Nat.mod_eq_of_lt (by omega)).symm
      rw [selLoop, hnext, ih, ih, List.range'_succ, List.map_cons]
      cases hf : inFiller p (a % selNcb p) <;> simp [hf]

/-- In `q` walks around the buffer the loop repeats the pass `q` times, up to what is left to select (R113). -/
theorem selLoop_passes (hn : 1 ≤ selNcb p) (q n : Nat) :
    selLoop c p (q * selNcb p) (selK0 c p) n = ((List.replicate q (selOnePass c p)).flatten).take n := by
  have hperiodic : Function.Periodic (fun k => (selK0 c p + k) % selNcb p) (selNcb p) := fun k => by
    simp only [← Nat.add_assoc, Nat.add_mod_right]
  have hwalk : (List.range' (selK0 c p) (q * selNcb p)).map (fun k => k % selNcb p)
      = (List.replicate q ((List.range (selNcb p)).map fun k => (selK0 c p + k) % selNcb p)).flatten := by
    rw [← map_range_periodic hperiodic, List.range'_eq_map_range, List.map_map]
    rfl
  have hloop := selLoop_eq_take (c := c) hn (q * selNcb p) (selK0 c p) n
  rw [Nat.mod_eq_of_lt (selK0_lt hn)] at hloop
  rw [hloop, hwalk, List.filter_flatten, List.map_replicate, ← selOnePass_eq_filter_mod]

end

/-! ### The obligations -/

/-- Settles O11: legal parameters pass the checks of SELECT, and the selector's functions are the rules' formulas. -/
theorem selectComputesSelection : Obligations.SelectComputesSelection := by
  intro s h p n ncb k0tab k0raw fillerEnd advanced k0 usable
  have hraw : selK0raw s.cfg s.snap = k0raw := by
    obtain ⟨⟨hbg, -⟩, -⟩ := h
    rw [selK0raw, k0Tab_eq_getD _ hbg]
    rfl
  have hadvanced : selAdvanced s.cfg s.snap = advanced := by
    simp only [selAdvanced, inFiller_eq_true, hraw]
    rfl
  have hk0 : selK0 s.cfg s.snap = k0 := by
    rw [selK0, hadvanced]
    rfl
  rw [exec_accepted ((validate_eq_none_iff_legal s.cfg .select s.snap).2 h), ← hraw, ← hk0]
  rfl

/-- Settles O36: the table's row of the base graph, the bound by `selK0raw_lt`, and `0` for an empty buffer. -/
theorem rawStartInsideBuffer : Obligations.RawStartInsideBuffer := by
  intro c p hc hbg _ _
  exact ⟨by rw [selK0raw, k0Tab_eq_getD c hbg], selK0raw_lt hc, selK0raw_of_empty⟩

/-- Settles O37: a selected index is usable, the sequence repeats the pass, and the pass begins with the start index. -/
theorem selectionProperties : Obligations.SelectionProperties := by
  intro c p hc h
  refine ⟨fun j => (sel_usable h j).1, fun j => (inFiller_eq_false p _).1 (sel_usable h j).2, sel_periodic h,
    fun i hi hf => passes_le_hits_length h hi ((inFiller_eq_false p i).2 hf), ?_⟩
  obtain ⟨rest, hpass⟩ := selOnePass_eq_cons (selNcb_pos h) (selK0_usable hc h)
  simp [sel, hpass]

/-- Settles O38: in `ceil(n / U)` walks around the buffer the loop repeats the pass, as the sequence does. -/
theorem loopComputesSelection : Obligations.LoopComputesSelection := by
  intro c p n h
  refine ⟨selOnePass_length_of_legal h, ?_⟩
  rw [selLoop_passes (selNcb_pos h), ← map_sel_range_passes h, ← List.map_take, List.take_range, Nat.min_eq_left]
  obtain ⟨-, -, -, -, -, -, hu⟩ := h
  have hceil : n + selU p - 1 < (n + selU p - 1) / selU p * selU p + selU p := Nat.lt_div_mul_add hu
  omega

end Sys2Proof.Machine
end

section
/-! Rate matching: what an undisturbed selecting command answers, and RM's output as a copy of the selected elements of
DMEM. -/

namespace Sys2Proof.Machine

/-! ### Undisturbed completion -/

/-- Without a hazard only the memory changes when a command's memory is put in place. -/
theorem State.putMem_quiet {s : State} (h : s.hazard = false) (ws : List Range) (m : Memory) :
    s.putMem ws m = { s with mem := m } := by
  simp [State.putMem, h]

/-- The whole answer of a command that selects, on legal parameters and undisturbed (R45, R198, R199): its memory effect,
the selection in the result registers, OUTLEN and completion. -/
theorem exec_selects_quiet {i : Instr} {s : State} (hk : Check.nu ∈ checksOf i) (hl : Legal s.cfg i s.snap)
    (hz : s.hazard = false) :
    exec i s = .next { s with
      mem := memoryEffect s.cfg i s.snap s.mem, k0raw := BitVec.ofNat 32 (selK0raw s.cfg s.snap),
      k0 := BitVec.ofNat 32 (selK0 s.cfg s.snap), ncb := BitVec.ofNat 32 (selNcb s.snap),
      usable := BitVec.ofNat 32 (selU s.snap), outlen := BitVec.ofNat 32 (outlenAfter i s.snap),
      busy := false, done := true, latency := 0 } := by
  have heffect : effect i s
      = (({ s with mem := memoryEffect s.cfg i s.snap s.mem }).putSelection).putOutlen (outlenAfter i s.snap) := by
    cases i
    case select => rfl
    case rm | dm | dmCf | rmil | dildm | dildmCf =>
      rw [effect, State.putMem_quiet hz]
      rfl
    all_goals simp [checksOf] at hk
  rw [exec_accepted ((validate_eq_none_iff_legal _ _ _).2 hl), heffect, hz]
  rfl

theorem Params.ofNat_eN (p : Params) : BitVec.ofNat 32 p.eN = p.e := by
  rw [Params.eN, BitVec.ofNat_toNat, BitVec.setWidth_eq]

/-! ### The obligations -/

/-- Settles O13: RM's whole answer, with the copy and the frame of its memory effect. -/
theorem rmCopiesSelectedElements : Obligations.RmCopiesSelectedElements := by
  intro s hl hz
  rw [exec_selects_quiet (i := .rm) (by decide) hl hz, ← s.snap.ofNat_eN]
  refine ⟨_, rfl, fun j hj => bit_rmMemory _ _ _ hj, fun a ha => ?_, rfl⟩
  exact (StoresIn.rm s.cfg s.snap).outside _ _ (by rwa [anyHas_singleton])

/-- What RM leaves in each position of its output, its outcome given (R126). -/
theorem bit_of_exec_rm {s t : State} (hl : RmLegal s.cfg s.snap) (hz : s.hazard = false) (ht : exec .rm s = .next t)
    {j : Nat} (hj : j < s.snap.eN) : t.mem.bit .emem j = s.mem.bit .dmem (sel s.cfg s.snap j) := by
  obtain ⟨u, hu, hcopy, -⟩ := rmCopiesSelectedElements s hl hz
  obtain rfl := Host.Outcome.next.inj (hu.symm.trans ht)
  exact hcopy j hj

/-- Settles O14: position `j mod U` is an output position too, and the selection has period `U`. -/
theorem rmRepeatsCyclically : Obligations.RmRepeatsCyclically := by
  intro s t hl hz ht j hj
  have hmod : j % selU s.snap < s.snap.eN := (Nat.mod_le _ _).trans_lt hj
  rw [bit_of_exec_rm hl hz ht hj, bit_of_exec_rm hl hz ht hmod, (sel_periodic hl.1).map_mod_nat]

/-- Settles O15: each element written is a copy of a selected element, and a selected index is usable. -/
theorem rmOutputHasNoFillerValue : Obligations.RmOutputHasNoFillerValue := by
  intro s t v hl hz ht hv j hj
  obtain ⟨hlt, hfiller⟩ := sel_usable hl.1 j
  rw [bit_of_exec_rm hl hz ht hj]
  exact hv _ hlt ((inFiller_eq_false _ _).1 hfiller)

end Sys2Proof.Machine
end

section
/-! Rate dematching: one combining step as a saturated signed sum, a run of steps as the exact sum where nothing
saturates, and the accumulators DM and DM.cf leave. -/

namespace Sys2Proof.Machine

/-! ### Combining steps -/

/-- One combining step, read as a signed integer (R137). -/
theorem toInt_combine (acc llr : Half) : (combine acc llr).toInt = sat16 (acc.toInt + llr.toInt) := by
  have hrange : -32768 ≤ sat16 (acc.toInt + llr.toInt) ∧ sat16 (acc.toInt + llr.toInt) ≤ 32767 := by
    simp only [sat16]
    omega
  rw [combine, BitVec.toInt_ofInt_eq_self (by decide) hrange.1 (Int.lt_add_one_of_le hrange.2)]

theorem sat16_eq_self {v : Int} (h : -32768 ≤ v ∧ v ≤ 32767) : sat16 v = v := by
  simp only [sat16]
  omega

theorem llrSum_append (llr : Nat → Half) (js ks : List Nat) :
    llrSum llr (js ++ ks) = llrSum llr js + llrSum llr ks := by
  simp [llrSum]

theorem combineHits_append (acc : Half) (llr : Nat → Half) (js ks : List Nat) :
    combineHits acc llr (js ++ ks) = combineHits (combineHits acc llr js) llr ks :=
  List.foldl_append

/-- The sum the additions start from is in range. -/
theorem NoSaturation.start_mem {acc : Int} {llr : Nat → Half} {js : List Nat} (h : NoSaturation acc llr js) :
    -32768 ≤ acc ∧ acc ≤ 32767 := by
  simpa [llrSum] using h 0 (Nat.zero_le _)

/-- After the first addition the sums still stay in range. -/
theorem NoSaturation.tail {acc : Int} {llr : Nat → Half} {j : Nat} {js : List Nat}
    (h : NoSaturation acc llr (j :: js)) : NoSaturation (acc + (llr j).toInt) llr js := fun k hk => by
  have hnext := h (k + 1) (by simpa using hk)
  simpa only [List.take_succ_cons, llrSum, List.map_cons, List.sum_cons, ← Int.add_assoc] using hnext

theorem NoSaturation.of_append {acc : Int} {llr : Nat → Half} {js ks : List Nat}
    (h : NoSaturation acc llr (js ++ ks)) : NoSaturation acc llr js := fun k hk => by
  have hprefix := h k (by rw [List.length_append]; omega)
  rwa [List.take_append_of_le_length hk] at hprefix

/-- Where no sum leaves the range, a run of combining steps is the exact sum (R138). -/
theorem toInt_combineHits {acc : Half} {llr : Nat → Half} {js : List Nat} (h : NoSaturation acc.toInt llr js) :
    (combineHits acc llr js).toInt = acc.toInt + llrSum llr js := by
  induction js generalizing acc with
  | nil => simp [combineHits, llrSum]
  | cons j js ih =>
    have hstep : (combine acc (llr j)).toInt = acc.toInt + (llr j).toInt := by
      rw [toInt_combine, sat16_eq_self h.tail.start_mem]
    have hrest := ih (acc := combine acc (llr j)) (by rw [hstep]; exact h.tail)
    calc (combineHits acc llr (j :: js)).toInt = (combineHits (combine acc (llr j)) llr js).toInt := rfl
      _ = acc.toInt + llrSum llr (j :: js) := by
        rw [hrest, hstep, llrSum, llrSum, List.map_cons, List.sum_cons, Int.add_assoc]

theorem llrSum_perm (llr : Nat → Half) {js ks : List Nat} (h : js.Perm ks) : llrSum llr js = llrSum llr ks :=
  (h.map _).sum_eq

/-- The same LLRs again, nothing saturating, double an accumulator that started from 0 (R140, R141). -/
theorem toInt_combineHits_twice {llr : Nat → Half} {js : List Nat} (h : NoSaturation 0 llr (js ++ js)) :
    (combineHits (combineHits 0 llr js) llr js).toInt = 2 * (combineHits 0 llr js).toInt := by
  have hzero : (0 : Half).toInt = 0 := rfl
  rw [← combineHits_append, toInt_combineHits (acc := 0) h, toInt_combineHits (acc := 0) h.of_append, llrSum_append,
    hzero]
  omega

/-! ### The accumulators -/

section
variable {c : Config} {p : Params}

/-- No position is selected for a filler index (R114 b, R139). -/
theorem hits_eq_nil_of_filler (h : SelectorLegal c p) {i : Nat} (hi : inFiller p i = true) : hits c p i = [] :=
  List.eq_nil_iff_forall_not_mem.2 fun j hj => by
    have husable := (sel_usable h j).2
    rw [(mem_hits.1 hj).2, hi] at husable
    exact Bool.noConfusion husable

/-- The LLRs combined into an accumulator are read alike before and after a store in the HARQ buffer (R66, R136). -/
theorem combineHits_lmem_of_storesIn (hc : c.Valid) (hl : DmLegal c p) {f : Memory → Memory}
    (hf : StoresIn f [MemId.hmem.range p.harqN (selNcb p)]) (acc : Half) (m : Memory) (i : Nat) :
    combineHits acc (fun j => (f m).half .lmem j) (hits c p i)
      = combineHits acc (fun j => m.half .lmem j) (hits c p i) := by
  obtain ⟨-, he, hharq⟩ := hl
  exact combineHits_congr acc fun j hj => hf.lmem_of_hmem hc hharq m ((mem_hits.1 hj).1.trans_le he)

/-- One accumulator after DM.cf's memory effect, the LLRs read before the clear (R139). -/
theorem half_dmCfMemory_of_legal (hc : c.Valid) (hl : DmLegal c p) (m : Memory) {i : Nat} (hi : i < selNcb p) :
    (dmCfMemory c p m).half .hmem (p.harqN + i) = combineHits 0 (fun j => m.half .lmem j) (hits c p i) := by
  rw [half_dmCfMemory c p m hi, combineHits_lmem_of_storesIn hc hl (StoresIn.clearHarq p)]

/-- One accumulator after DM.cf's memory effect and then DM's: the LLRs are added twice, from 0 (R140). -/
theorem half_dmMemory_dmCfMemory (hc : c.Valid) (hl : DmLegal c p) (m : Memory) {i : Nat} (hi : i < selNcb p) :
    (dmMemory c p (dmCfMemory c p m)).half .hmem (p.harqN + i)
      = combineHits (combineHits 0 (fun j => m.half .lmem j) (hits c p i)) (fun j => m.half .lmem j)
          (hits c p i) := by
  rw [half_dmMemory, combineHits_lmem_of_storesIn hc hl (StoresIn.dmCf (selNcb_pos hl.1)),
    half_dmCfMemory_of_legal hc hl m hi]

end

/-! ### The obligations -/

/-- Settles O18: `sat16` is the rule's saturation, and its result fits 16 bits. -/
theorem combineSaturates : Obligations.CombineSaturates := toInt_combine

/-- Settles O19: the exact sum is the same in every order; at the upper end of the range, +1 then -1 and -1 then +1
differ. -/
theorem orderMattersOnlyUnderSaturation : Obligations.OrderMattersOnlyUnderSaturation := by
  refine ⟨fun _ _ _ => toInt_combineHits, fun acc llr js ks hperm hjs hks => BitVec.eq_of_toInt_eq ?_, ?_⟩
  · rw [toInt_combineHits hjs, toInt_combineHits hks, llrSum_perm llr hperm]
  · exact ⟨0x7FFF, fun j => if j = 0 then 1 else -1, [0, 1], [1, 0], List.Perm.swap 1 0 [], by decide⟩

/-- Settles O16: DM's whole answer, with the accumulators and the frame of its memory effect. -/
theorem dmCombinesInOrder : Obligations.DmCombinesInOrder := by
  intro s hl hz
  rw [exec_selects_quiet (i := .dm) (by decide) hl hz, ← s.snap.ofNat_eN]
  refine ⟨_, rfl, fun i _ => half_dmMemory _ _ _ i, fun a ha => ?_, rfl⟩
  exact (StoresIn.dm (selNcb_pos hl.1)).outside _ _ (by rwa [anyHas_singleton])

/-- Settles O17: as DM from 0, and a filler index has no position to combine. -/
theorem dmCfClearsThenCombines : Obligations.DmCfClearsThenCombines := by
  intro s hc hl hz
  rw [exec_selects_quiet (i := .dmCf) (by decide) hl hz, ← s.snap.ofNat_eN]
  refine ⟨_, rfl, fun i hi => half_dmCfMemory_of_legal hc hl _ hi, fun i hi hlo hhi => ?_, fun a ha => ?_, rfl⟩
  · have hnone : hits s.cfg s.snap i = [] := hits_eq_nil_of_filler hl.1 ((inFiller_eq_true _ _).2 ⟨hlo, hhi⟩)
    exact (half_dmCfMemory_of_legal hc hl _ hi).trans (by rw [hnone]; rfl)
  · exact (StoresIn.dmCf (selNcb_pos hl.1)).outside _ _ (by rwa [anyHas_singleton])

/-- Settles O20: DM.cf keeps the snapshot and the LLRs, so the DM after it adds the same LLRs again. -/
theorem secondCombineDoubles : Obligations.SecondCombineDoubles := by
  intro s hc hl hz
  refine ⟨_, _, exec_selects_quiet (i := .dmCf) (by decide) hl hz, exec_selects_quiet (i := .dm) (by decide) hl hz,
    fun i hi hrange => ?_⟩
  change ((dmMemory s.cfg s.snap (dmCfMemory s.cfg s.snap s.mem)).half .hmem (s.snap.harqN + i)).toInt
    = 2 * ((dmCfMemory s.cfg s.snap s.mem).half .hmem (s.snap.harqN + i)).toInt
  rw [half_dmMemory_dmCfMemory hc hl _ hi, half_dmCfMemory_of_legal hc hl _ hi, toInt_combineHits_twice hrange]

/-- What DM.cf leaves in each accumulator, its outcome given (R139). -/
theorem half_of_exec_dmCf {s t : State} (hc : s.cfg.Valid) (hl : DmLegal s.cfg s.snap) (hz : s.hazard = false)
    (ht : exec .dmCf s = .next t) {i : Nat} (hi : i < selNcb s.snap) :
    t.mem.half .hmem (s.snap.harqN + i) = combineHits 0 (fun j => s.mem.half .lmem j) (hits s.cfg s.snap i) := by
  obtain ⟨u, hu, hacc, -⟩ := dmCfClearsThenCombines s hc hl hz
  obtain rfl := Host.Outcome.next.inj (hu.symm.trans ht)
  exact hacc i hi

/-- Settles O21: both runs combine the same LLRs from 0, at the same positions. -/
theorem clearDiscardsHistory : Obligations.ClearDiscardsHistory := by
  intro s s' t t' hc hcfg hsnap hl hz hz' hllr ht ht' i hi
  have hacc' : t'.mem.half .hmem (s.snap.harqN + i)
      = combineHits 0 (fun j => s'.mem.half .lmem j) (hits s.cfg s.snap i) := by
    rw [hcfg] at hc hl ⊢
    rw [hsnap] at hl hi ⊢
    exact half_of_exec_dmCf hc hl hz' ht' hi
  rw [half_of_exec_dmCf hc hl hz ht hi, hacc']
  exact combineHits_congr 0 fun j hj => hllr j (mem_hits.1 hj).1

end Sys2Proof.Machine
end

section
/-! Interleaving and de-interleaving: what IL and DIL answer undisturbed, and their index maps as inverses of each
other. -/

namespace Sys2Proof.Machine

/-! ### Undisturbed completion -/

/-- The whole answer of IL and of DIL, on legal parameters and undisturbed (R151, R153, R198, R199): the memory effect,
OUTLEN and completion; the result registers stay. -/
theorem exec_interleaves_quiet {i : Instr} {s : State} (hi : i = .il ∨ i = .dil) (hl : Legal s.cfg i s.snap)
    (hz : s.hazard = false) :
    exec i s = .next { s with
      mem := memoryEffect s.cfg i s.snap s.mem, outlen := s.snap.e, busy := false, done := true, latency := 0 } := by
  have heffect : effect i s
      = ({ s with mem := memoryEffect s.cfg i s.snap s.mem } : State).putOutlen s.snap.eN := by
    rcases hi with rfl | rfl <;> rw [effect, State.putMem_quiet hz]
  rw [exec_accepted ((validate_eq_none_iff_legal _ _ _).2 hl), heffect, State.putOutlen, Params.ofNat_eN, hz]
  rfl

/-! ### The index maps -/

/-- An index below `l * n` lies in one of the `l` rows of `n`. -/
theorem exists_row_of_lt {l n k : Nat} (h : k < l * n) : ∃ i < l, ∃ q < n, i * n + q = k :=
  ⟨k / n, Nat.div_lt_of_lt_mul (by rwa [Nat.mul_comm]), k % n, Nat.mod_lt k (Nat.pos_of_lt_mul_left h),
    Nat.div_add_mod' k n⟩

section
variable {l qm k : Nat}

/-- Reading the interleaver's map at the de-interleaver's gives the index back (R154). -/
theorem interleaveIndices_deinterleaveIndices (h : k < l * qm) :
    (interleaveIndices l qm).getD ((deinterleaveIndices l qm).getD k 0) 0 = k := by
  obtain ⟨q, hq, i, hi, rfl⟩ := exists_row_of_lt (Nat.mul_comm l qm ▸ h)
  rw [deinterleaveIndices_getD hi hq, interleaveIndices_getD hi hq]

/-- Reading the de-interleaver's map at the interleaver's gives the index back (R154). -/
theorem deinterleaveIndices_interleaveIndices (h : k < l * qm) :
    (deinterleaveIndices l qm).getD ((interleaveIndices l qm).getD k 0) 0 = k := by
  obtain ⟨i, hi, q, hq, rfl⟩ := exists_row_of_lt h
  rw [interleaveIndices_getD hi hq, deinterleaveIndices_getD hi hq]

/-- The de-interleaver's map stays below `L * Qm` (R150). -/
theorem deinterleaveIndices_lt (h : k < l * qm) : (deinterleaveIndices l qm).getD k 0 < l * qm := by
  obtain ⟨q, hq, i, hi, rfl⟩ := exists_row_of_lt (Nat.mul_comm l qm ▸ h)
  rw [deinterleaveIndices_getD hi hq]
  exact row_lt hi hq

/-- One element of an interleaved sequence, read where the de-interleaver reads it: the element at the same place of the
sequence itself (R154). -/
theorem interleaved_getD_deinterleaveIndices {α : Type} (f : Nat → α) (d : α) (h : k < l * qm) :
    ((interleaveIndices l qm).map f).getD ((deinterleaveIndices l qm).getD k 0) d = f k := by
  have hlt := deinterleaveIndices_lt h
  have hback := interleaveIndices_deinterleaveIndices h
  rw [List.getD_eq_getElem _ _ (by simpa using hlt)] at hback ⊢
  rw [List.getElem_map, hback]

end

/-! ### The obligations -/

/-- Settles O22: IL's whole answer, with the index map and the frame of its memory effect. -/
theorem ilInterleaves : Obligations.IlInterleaves := by
  intro s hl hz
  refine ⟨_, exec_interleaves_quiet (.inl rfl) hl hz, fun i hi q hq => bit_ilMemory _ _ hi hq, fun a ha => ?_, rfl⟩
  exact (StoresIn.il s.snap).outside _ _ (by rwa [anyHas_singleton])

/-- Settles O23: DIL's whole answer, with the index map and the frame of its memory effect. -/
theorem dilDeinterleaves : Obligations.DilDeinterleaves := by
  intro s hl hz
  refine ⟨_, exec_interleaves_quiet (.inr rfl) hl hz, fun i hi q hq => half_dilMemory _ _ hi hq, fun a ha => ?_, rfl⟩
  exact (StoresIn.dil s.snap).outside _ _ (by rwa [anyHas_singleton])

/-- Settles O24: both maps exchange row and column of the same table, so each undoes the other, and the round trip of a
sequence reads every element at its own place. -/
theorem deinterleaveInvertsInterleave : Obligations.DeinterleaveInvertsInterleave := by
  intro l qm _
  refine ⟨fun _ => interleaveIndices_deinterleaveIndices, fun _ => deinterleaveIndices_interleaveIndices,
    fun x hx => List.ext_getElem (by simp [hx, Nat.mul_comm]) fun k hk hkx => ?_⟩
  have hindex : k < (deinterleaveIndices l qm).length := by simpa using hk
  rw [List.getElem_map, ← List.getD_eq_getElem _ 0 hindex,
    interleaved_getD_deinterleaveIndices _ _ (hx ▸ hkx), List.getD_eq_getElem _ _ hkx]

end Sys2Proof.Machine
end

section
/-! The per-segment commands: MARKF's fill, and RMIL and DILDM as the two commands they join, one storing in a memory the
other leaves alone. -/

namespace Sys2Proof.Machine

/-! ### MARKF -/

/-- The whole answer of MARKF, on legal parameters and undisturbed (R165, R198, R199): the memory effect, OUTLEN and
completion. -/
theorem exec_markf_quiet {s : State} (hl : MarkfLegal s.cfg s.snap) (hz : s.hazard = false) :
    exec .markf s = .next { s with
      mem := markfMemory s.snap s.mem, outlen := BitVec.ofNat 32 s.snap.fN, busy := false, done := true,
      latency := 0 } := by
  rw [exec_accepted ((validate_eq_none_iff_legal s.cfg .markf s.snap).2 hl), effect, State.putMem_quiet hz, hz]
  rfl

/-- One bit of the filler region after MARKF's memory effect (R165). -/
theorem bit_markfMemory (p : Params) (m : Memory) {k : Nat} (hk : k < p.fN) :
    (markfMemory p m).bit .dmem (p.foffN + k) = p.sentinel := by
  rw [markfMemory, Memory.bit_putBits_same _ _ _ _ _ rfl (by simpa using hk), List.getD_replicate _ hk]

/-! ### Elements of another memory -/

section
variable {c : Config} {f : Memory → Memory} {x y : MemId} {lo n i : Nat}

/-- No byte of an element lies in a range of another memory's elements (R66, R70). -/
theorem anyHas_range_otherMemory (hc : c.Valid) (hxy : x ≠ y) (h : lo + n ≤ x.elems c) (hi : i < y.elems c) {d : Nat}
    (hd : d < y.esz) : anyHas [x.range lo n] (y.addr i + d) = false :=
  (anyHas_singleton _ _).trans (MemId.range_has_other hc hxy h hi hd)

theorem StoresIn.bit_otherMemory (hf : StoresIn f [x.range lo n]) (hc : c.Valid) (hxy : x ≠ y)
    (h : lo + n ≤ x.elems c) (hi : i < y.elems c) (hy : y.esz = 1) (m : Memory) : (f m).bit y i = m.bit y i :=
  hf.outside m _ (anyHas_range_otherMemory hc hxy h hi (d := 0) (by omega))

theorem StoresIn.half_otherMemory (hf : StoresIn f [x.range lo n]) (hc : c.Valid) (hxy : x ≠ y)
    (h : lo + n ≤ x.elems c) (hi : i < y.elems c) (hy : y.esz = 2) (m : Memory) : (f m).half y i = m.half y i :=
  hf.half_other m (anyHas_range_otherMemory hc hxy h hi (d := 0) (by omega))
    (anyHas_range_otherMemory hc hxy h hi (d := 1) (by omega))

end

section
variable {c : Config} {p : Params}

/-! ### RMIL -/

/-- One bit that RM leaves in EMEM, after IL's memory effect on it (R168). -/
theorem bit_emem_ilMemory_rmMemory (hc : c.Valid) (hl : RmilLegal c p) (m : Memory) {j : Nat} (hj : j < p.eN) :
    (ilMemory p (rmMemory c p m)).bit .emem j = m.bit .dmem (sel c p j) := by
  obtain ⟨⟨-, he⟩, -, -, hout⟩ := hl
  have hother : MemId.omem ≠ .emem := by decide
  rw [(StoresIn.il p).bit_otherMemory hc hother hout (hj.trans_le he) rfl, bit_rmMemory c p m hj]

/-- One bit that IL leaves in OMEM, its input being RM's output (R168). -/
theorem bit_omem_ilMemory_rmMemory (m : Memory) {i q : Nat} (hi : i < p.eN / p.qmN) (hq : q < p.qmN) :
    (ilMemory p (rmMemory c p m)).bit .omem (p.outN + (i * p.qmN + q))
      = m.bit .dmem (sel c p (q * (p.eN / p.qmN) + i)) := by
  rw [bit_ilMemory _ _ hi hq, bit_rmMemory c p m ((row_lt hq hi).trans_le (Nat.mul_div_le _ _))]

/-! ### DILDM -/

/-- One LLR that DIL leaves in LMEM, after a store in the HARQ buffer (R170). -/
theorem half_lmem_dilMemory (hc : c.Valid) (hl : DildmLegal c p) {f : Memory → Memory}
    (hf : StoresIn f [MemId.hmem.range p.harqN (selNcb p)]) (m : Memory) {i q : Nat} (hi : i < p.eN / p.qmN)
    (hq : q < p.qmN) :
    (f (dilMemory p m)).half .lmem (q * (p.eN / p.qmN) + i) = m.half .rmem (p.rxN + (i * p.qmN + q)) := by
  obtain ⟨⟨-, he, hharq⟩, -⟩ := hl
  have hlt : q * (p.eN / p.qmN) + i < p.eN := (row_lt hq hi).trans_le (Nat.mul_div_le _ _)
  rw [hf.lmem_of_hmem hc hharq _ (hlt.trans_le he), half_dilMemory _ _ hi hq]

/-- One accumulator after DIL's memory effect and then DM's: the de-interleaved LLRs added to its old value (R170). -/
theorem half_dmMemory_dilMemory (hc : c.Valid) (hl : DildmLegal c p) (m : Memory) {i : Nat} (hi : i < selNcb p) :
    (dmMemory c p (dilMemory p m)).half .hmem (p.harqN + i)
      = combineHits (m.half .hmem (p.harqN + i)) (fun j => (dmMemory c p (dilMemory p m)).half .lmem j)
          (hits c p i) := by
  obtain ⟨hdm, -⟩ := hl
  have ⟨hsel, he, hharq⟩ := hdm
  have hother : MemId.lmem ≠ .hmem := by decide
  have hold : (dilMemory p m).half .hmem (p.harqN + i) = m.half .hmem (p.harqN + i) :=
    (StoresIn.dil p).half_otherMemory hc hother ((Nat.zero_add _).trans_le he)
      ((Nat.add_lt_add_left hi _).trans_le hharq) rfl m
  rw [combineHits_lmem_of_storesIn hc hdm (StoresIn.dm (selNcb_pos hsel)), half_dmMemory, hold]

/-- One accumulator after DIL's memory effect and then DM.cf's: the de-interleaved LLRs added to 0 (R170). -/
theorem half_dmCfMemory_dilMemory (hc : c.Valid) (hl : DildmLegal c p) (m : Memory) {i : Nat} (hi : i < selNcb p) :
    (dmCfMemory c p (dilMemory p m)).half .hmem (p.harqN + i)
      = combineHits 0 (fun j => (dmCfMemory c p (dilMemory p m)).half .lmem j) (hits c p i) := by
  obtain ⟨hdm, -⟩ := hl
  rw [combineHits_lmem_of_storesIn hc hdm (StoresIn.dmCf (selNcb_pos hdm.1)), half_dmCfMemory_of_legal hc hdm _ hi]

end

/-! ### The obligations -/

/-- Settles O12: MARKF's whole answer, with the fill and the frame of its memory effect. -/
theorem markfMarksFillerRegion : Obligations.MarkfMarksFillerRegion := by
  intro s hl hz
  refine ⟨_, exec_markf_quiet hl hz, fun k hk => bit_markfMemory _ _ hk, fun a ha => ?_, rfl⟩
  exact (StoresIn.markf s.snap).outside _ _ (by rwa [anyHas_singleton])

/-- Settles O25: RMIL's whole answer; IL reads the EMEM that RM left, and leaves it. -/
theorem rmilSelectsAndInterleaves : Obligations.RmilSelectsAndInterleaves := by
  intro s hc hl hz
  rw [exec_selects_quiet (i := .rmil) (by decide) hl hz, ← s.snap.ofNat_eN]
  exact ⟨_, rfl, fun j hj => bit_emem_ilMemory_rmMemory hc hl _ hj,
    fun i hi q hq => bit_omem_ilMemory_rmMemory _ hi hq,
    (StoresIn.comp (StoresIn.rm s.cfg s.snap) (StoresIn.il s.snap)).outside _, rfl⟩

/-- Settles O26: RM keeps the snapshot, so IL after it completes as RMIL does; a failing check of IL is one of RMIL's. -/
theorem rmilIsRmThenIl : Obligations.RmilIsRmThenIl := by
  refine ⟨fun s hl hz => ⟨_, exec_selects_quiet (i := .rm) (by decide) hl.1 hz, ?_⟩, fun s hil => ?_⟩
  · have hout : BitVec.ofNat 32 (outlenAfter .rmil s.snap) = s.snap.e := s.snap.ofNat_eN
    rw [exec_selects_quiet (i := .rmil) (by decide) hl hz, hout]
    exact Eq.symm (exec_interleaves_quiet (.inl rfl) hl.2 hz)
  · cases hv : validate s.cfg .rmil s.snap with
    | some r => exact ⟨_, exec_rejected hv, rfl⟩
    | none => exact absurd ((validate_eq_none_iff_legal _ _ _).1 hv).2 hil

/-- Settles O27: the whole answer of both forms; the combining reads the LMEM that DIL left, and leaves it. -/
theorem dildmDeinterleavesAndCombines : Obligations.DildmDeinterleavesAndCombines := by
  intro s hc hl hz x hx
  have hn := selNcb_pos hl.1.1
  rw [← s.snap.ofNat_eN]
  rcases List.mem_pair.1 hx with rfl | rfl
  · exact ⟨_, exec_selects_quiet (i := .dildm) (by decide) hl hz,
      fun i hi q hq => half_lmem_dilMemory hc hl (StoresIn.dm hn) _ hi hq,
      fun i hi => half_dmMemory_dilMemory hc hl _ hi, (StoresIn.comp (StoresIn.dil _) (StoresIn.dm hn)).outside _, rfl⟩
  · exact ⟨_, exec_selects_quiet (i := .dildmCf) (by decide) hl hz,
      fun i hi q hq => half_lmem_dilMemory hc hl (StoresIn.dmCf hn) _ hi hq,
      fun i hi => half_dmCfMemory_dilMemory hc hl _ hi, (StoresIn.comp (StoresIn.dil _) (StoresIn.dmCf hn)).outside _,
      rfl⟩

/-- Settles O28: DIL keeps the snapshot, so the command after it completes as the joined one does. -/
theorem dildmIsDilThenDm : Obligations.DildmIsDilThenDm := by
  intro s hl hz
  refine ⟨_, exec_interleaves_quiet (.inr rfl) hl.2 hz, ?_, ?_⟩
  · exact (exec_selects_quiet (i := .dildm) (by decide) hl hz).trans
      (Eq.symm (exec_selects_quiet (i := .dm) (by decide) hl.1 hz))
  · exact (exec_selects_quiet (i := .dildmCf) (by decide) hl hz).trans
      (Eq.symm (exec_selects_quiet (i := .dmCf) (by decide) hl.1 hz))

end Sys2Proof.Machine
end

section
/-! The control commands (spec/45_control.md): neither checks a parameter, so both always complete. -/

namespace Sys2Proof.Machine

/-- The whole answer of NOP: no row of R198 checks it, and its effect is OUTLEN alone (R180). -/
theorem exec_nop (s : State) : exec .nop s = .next (s.putOutlen 0).complete :=
  exec_accepted (i := .nop) rfl

/-- The whole answer of CLRERR: no row of R198 checks it, and its effect is the cleared error state and OUTLEN (R182). -/
theorem exec_clrerr (s : State) : exec .clrerr s = .next (s.clearErrors.putOutlen 0).complete :=
  exec_accepted (i := .clrerr) rfl

/-- Completion with no error history leaves DONE as the only STATUS bit (R26, R199). -/
theorem statusWord_complete_of_noErrors {s : State} (herr : s.err = false) (hovr : s.ovr = false) :
    s.complete.statusWord = 0x2 := by
  simp [State.statusWord, herr, hovr]

/-- Settles O8: NOP completes after writing OUTLEN, which leaves ERR and OVR, and so STATUS, to the completion. -/
theorem nopCompletes : Obligations.NopCompletes := by
  refine fun s => ⟨exec_nop s, fun herr hovr t ht => ?_⟩
  obtain rfl := Host.Outcome.next.inj ((exec_nop s).symm.trans ht)
  exact statusWord_complete_of_noErrors (s := s.putOutlen 0) herr hovr

/-- Settles O9: CLRERR completes after clearing the error state and OUTLEN. -/
theorem clrerrClearsErrorState : Obligations.ClrerrClearsErrorState :=
  exec_clrerr

end Sys2Proof.Machine
end

section
/-! Validation, rejection and the interrupt output (spec/60_exceptions.md): which parameters a command accepts, what a
rejected one writes, and how each register write drives IRQ. -/

namespace Sys2Proof.Machine

/-! ### IRQ after each register write that can lower it -/

/-- Writing 1 to DONE, and to ERR where it is set, leaves neither to drive IRQ (R30, R31, R206). -/
theorem irq_statusWrite {s : State} {v : Word} (hdone : v.getLsbD 1 = true) (herr : s.err = true → v.getLsbD 2 = true) :
    (s.statusWrite v).irq = false := by
  cases he : s.err with
  | false => simp [State.irq, hdone, he]
  | true => simp [State.irq, hdone, herr he]

theorem softReset_irqEn (s : State) : s.softReset.irqEn = false := by
  cases hb : s.busy with
  | false => rw [softReset_idle hb, State.resetRegisters_irqEn]
  | true => rw [softReset_busy hb, State.resetRegisters_irqEn]

/-- A CTRL write with bit 0 clear leaves IRQ_EN clear, whether it resets the block or not (R28, R206, R232). -/
theorem ctrlWrite_clears_irqEn {v : Word} (h : v.getLsbD 0 = false) (s : State) : (s.ctrlWrite v).irqEn = false := by
  cases hreset : v.getLsbD 1 with
  | true => rw [ctrlWrite_softReset hreset, softReset_irqEn]
  | false => rw [ctrlWrite_irqEn hreset, h]

/-- Accepting a command clears DONE, so ERR alone can still drive IRQ (R88, R206). -/
theorem irq_commandWrite_idle {s : State} (h : s.busy = false) (w : Word) :
    (s.commandWrite w).irq = (s.irqEn && s.err) := by
  simp [commandWrite_idle h, State.irq]

/-! ### The obligations -/

/-- Settles O29: the checks of each row against the inequalities they test. -/
theorem acceptedIffLegal : Obligations.AcceptedIffLegal :=
  validate_eq_none_iff_legal

/-- Settles O31: the next state is that of `reject`; its code is the class byte above the detail byte. -/
theorem rejectionIsPrecise : Obligations.RejectionIsPrecise := by
  intro i s r hv code
  have hcode : r.code = code := by
    cases r with
    | invalidParameter d => cases d <;> rfl
    | unsupportedModulationOrder => rfl
    | illegalCommand d => cases d <;> rfl
  rw [exec_rejected hv, State.reject, hcode]

/-- Settles O51, by the register written; the write's answer on the bus drives nothing. -/
theorem interruptClearing : Obligations.InterruptClearing := by
  refine fun s => ⟨rfl, fun v hdone herr => ?_, fun v hv => ?_, fun w hb => ?_, fun _ => rfl⟩
  · exact ⟨_, hostWrite_register s .status v, irq_statusWrite hdone herr⟩
  · have hirq : (s.ctrlWrite v).irq = false := by simp [State.irq, ctrlWrite_clears_irqEn hv]
    exact ⟨_, hostWrite_register s .ctrl v, hirq⟩
  · exact ⟨_, hostWrite_register s .cmd w, irq_commandWrite_idle hb w⟩

end Sys2Proof.Machine
end

section
/-! The two resets and the memory hazard (spec/70_reset_and_hazards.md): the registers after a reset, what each reset does
to the memories, the first command after a reset, and what a disturbed command leaves. -/

namespace Sys2Proof.Machine

/-! ### The registers after a reset -/

/-- Everything but the memories, the free values' counter and the host's side is as after a hardware reset of a block with
the same parameters (R230, R232, R233). -/
def State.AtReset (s : State) : Prop :=
  s = { State.initial s.cfg with mem := s.mem, freeCtr := s.freeCtr, inbox := s.inbox, resp := s.resp }

theorem atReset_initial (c : Config) : (State.initial c).AtReset := rfl

theorem atReset_softReset (s : State) : s.softReset.AtReset := by
  cases hb : s.busy with
  | false => rw [softReset_idle hb]; rfl
  | true => rw [softReset_busy hb]; rfl

theorem atReset_hardwareReset (s : State) : s.hardwareReset.AtReset := rfl

section
variable {s : State} (h : s.AtReset)
include h

theorem State.AtReset.readReg (r : Reg) : s.readReg r = (State.initial s.cfg).readReg r := by
  rw [h]
  rfl

theorem State.AtReset.irqEn : s.irqEn = false := by rw [h]; rfl

theorem State.AtReset.busy : s.busy = false := by rw [h]; rfl

/-- IRQ is low, since it is masked (R205, R233). -/
theorem State.AtReset.irq : s.irq = false := by rw [State.irq, h.irqEn, Bool.false_and]

end

/-- The registers that read 0 after a reset (R26, R233). -/
def zeroAtResetRegs : List Reg :=
  [.ctrl, .status, .cmd, .errcode, .errcmd, .bg, .z, .c, .f, .foff, .tbslbrm, .rv, .qm, .e, .outOffset, .rxOffset,
   .harqBase, .k0raw, .k0, .ncb, .usable, .outlen]

theorem statusWord_initial (c : Config) : (State.initial c).statusWord = 0 := by
  simp [State.statusWord, State.initial]

theorem readReg_initial_zero (c : Config) {r : Reg} (hr : r ∈ zeroAtResetRegs) : (State.initial c).readReg r = 0 := by
  cases r
  case status => exact statusWord_initial c
  case id | sentinel | capZmax | capEmax | capGmax | capHsize => simp [zeroAtResetRegs] at hr
  all_goals rfl

/-! ### The memories after a reset -/

/-- The ranges in flight are those of the legal command in flight (R240). -/
theorem flightWrites_of_legal {s : State} {i : Instr} (hb : s.busy = true) (hd : decode s.cmd = .cmd i)
    (hl : Legal s.cfg i s.snap) : s.flightWrites = writeRanges i s.snap := by
  rw [State.flightWrites, running_iff_legal.2 ⟨hb, hd, hl⟩]

@[simp] theorem Memory.readByte_fresh (epoch a : Nat) : (Memory.fresh epoch).readByte a = Config.freeByte epoch a := rfl

/-! ### The first command after a reset -/

/-- The command with its first check failing is rejected with that check's error (R197). -/
theorem validate_of_head_fails {i : Instr} {k : Check} {rest : List Check} {c : Config} {p : Params}
    (hchecks : checksOf i = k :: rest) (hfails : k.fails c p = true) : validate c i p = some k.reason := by
  rw [validate, hchecks, firstFailing, if_pos hfails]

/-- A rejection without an overrun leaves DONE and ERR as the only STATUS bits (R26, R199). -/
theorem statusWord_reject_of_noOverrun {s : State} (h : s.ovr = false) (r : Reason) : (s.reject r).statusWord = 0x6 := by
  simp [State.statusWord, h]

/-- The block with the default parameters after the first host access following a reset, the write of a word to CMD. -/
def firstCommand (w : Word) : State :=
  { State.reset.load w (Config.latency 1) with freeCtr := 2, resp := .written }

theorem hostWrite_firstCommand (w : Word) : hostWrite State.reset 0x00C 4 w = .next (firstCommand w) :=
  hostWrite_register State.reset .cmd w

/-- The command written right after reset is accepted, and completes with this error code, 0 for success (R234). -/
def FirstCommandAnswers (i : Instr) (code : Half) : Prop :=
  ∃ t u, hostWrite State.reset 0x00C 4 (encode i) = .next t ∧ t.busy = true ∧ t.cmd = encode i
    ∧ exec i t = .next u ∧ u.errcode = code ∧ u.errcmd = (if code = 0 then 0 else encode i)
    ∧ u.statusWord = (if code = 0 then 0x2 else 0x6)

theorem firstCommandAnswers_rejected {i : Instr} {k : Check} {rest : List Check} (hchecks : checksOf i = k :: rest)
    (hfails : k.fails Config.default (Params.reset Config.default) = true) :
    FirstCommandAnswers i k.reason.code := by
  have hexec := exec_rejected (s := firstCommand (encode i)) (validate_of_head_fails hchecks hfails)
  refine ⟨_, _, hostWrite_firstCommand _, rfl, rfl, hexec, rfl, ?_, ?_⟩
  · rw [if_neg k.reason.code_ne_zero]
    rfl
  · rw [if_neg k.reason.code_ne_zero, statusWord_reject_of_noOverrun rfl]

/-- A command that checks BG first finds BG = 0 (R196, R233). -/
theorem firstCommandAnswers_bgRange {i : Instr} {rest : List Check} (h : checksOf i = .bg :: rest) :
    FirstCommandAnswers i 0x0104 :=
  firstCommandAnswers_rejected h rfl

/-- A command that checks QM first finds QM = 0 (R196, R233). -/
theorem firstCommandAnswers_modulationOrder {i : Instr} {rest : List Check} (h : checksOf i = .qm :: rest) :
    FirstCommandAnswers i 0x0200 :=
  firstCommandAnswers_rejected h rfl

theorem firstCommandAnswers_nop : FirstCommandAnswers .nop 0 :=
  ⟨_, _, hostWrite_firstCommand _, rfl, rfl, exec_nop _, rfl, rfl,
    statusWord_complete_of_noErrors (s := (firstCommand _).putOutlen 0) rfl rfl⟩

theorem firstCommandAnswers_clrerr : FirstCommandAnswers .clrerr 0 :=
  ⟨_, _, hostWrite_firstCommand _, rfl, rfl, exec_clrerr _, rfl, rfl,
    statusWord_complete_of_noErrors (s := (firstCommand _).clearErrors.putOutlen 0) rfl rfl⟩

/-! ### What a disturbed command leaves -/

/-- A command's memory put in place changes nothing but the memory and the free values' counter (R240). -/
theorem State.putMem_frame (s : State) (ws : List Range) (m : Memory) :
    s.putMem ws m = { s with mem := (s.putMem ws m).mem, freeCtr := (s.putMem ws m).freeCtr } := by
  unfold State.putMem
  split <;> rfl

/-- The hazard reaches no register of a command's effect (R240). -/
theorem effect_setHazard (i : Instr) (s : State) (b : Bool) :
    effect i { s with hazard := b }
      = { effect i s with
          hazard := b, mem := (effect i { s with hazard := b }).mem, freeCtr := (effect i { s with hazard := b }).freeCtr } := by
  cases i
  case markf | rm | dm | dmCf | il | dil | rmil | dildm | dildmCf =>
    simp only [effect]
    rw [({ s with hazard := b } : State).putMem_frame, s.putMem_frame]
    rfl
  all_goals rfl

/-- A disturbed command draws free values exactly when it has bytes to write them to (R240). -/
theorem effect_freeCtr_hazard {i : Instr} {s : State} (hz : s.hazard = true) :
    (effect i s).freeCtr = s.freeCtr + (if writeRanges i s.snap = [] then 0 else 1) := by
  cases i
  case markf | rm | dm | dmCf | il | dil | rmil | dildm | dildmCf => simp [effect, State.putMem_freeCtr, hz, writeRanges]
  all_goals rfl

/-- What each byte reads as after the effect of a disturbed command (R240). -/
theorem readByte_effect_hazard {i : Instr} {s : State} (hv : validate s.cfg i s.snap = none) (hz : s.hazard = true)
    (a : Nat) :
    (effect i s).mem.readByte a
      = if anyHas (writeRanges i s.snap) a then Config.freeByte s.freeCtr a else s.mem.readByte a := by
  cases ha : anyHas (writeRanges i s.snap) a with
  | true => simp [effect_mem, hz, Memory.readByte_scramble, ha]
  | false => exact readByte_effect_outside hv ha

/-! ### The obligations -/

/-- Settles O34: only the memory and the free values' counter depend on the hazard, and both are known. -/
theorem disturbedCommandLeavesFreeValues : Obligations.DisturbedCommandLeavesFreeValues := by
  intro i s hl hz
  have hv := (validate_eq_none_iff_legal _ _ _).2 hl
  refine ⟨_, _, exec_accepted hv, exec_accepted (s := { s with hazard := false }) hv, ?_, readByte_effect_hazard hv hz⟩
  rw [effect_setHazard i s false, ← effect_freeCtr_hazard hz]
  rfl

/-- Settles O49: the registers are at reset, and the bytes freed are those of the ranges in flight. -/
theorem softResetKeepsMemories : Obligations.SoftResetKeepsMemories := by
  intro s
  have h := atReset_softReset s
  refine ⟨fun r => ?_, softReset_cfg s, h.busy, h.irq, softReset_inbox s, fun hb => ?_, fun i hb hd hl a => ?_⟩
  · rw [h.readReg, softReset_cfg]
  · rw [softReset_idle hb]
    rfl
  · rw [readByte_softReset, flightWrites_of_legal hb hd hl]

/-- Settles O52: each of the three states is at reset, where every register has its reset value. -/
theorem resetRegisterValues : Obligations.ResetRegisterValues := by
  refine ⟨fun t ht => ?_, rfl⟩
  have h : t.AtReset := by
    rcases ht with rfl | ⟨s, rfl | rfl⟩
    · exact atReset_initial _
    · exact atReset_softReset s
    · exact atReset_hardwareReset s
  exact ⟨fun r hr => (h.readReg r).trans (readReg_initial_zero _ hr), h.readReg .sentinel, rfl, rfl, rfl, rfl, rfl,
    h.irqEn, h.irq, h.busy⟩

/-- Settles O32, by the first check of each command's row, which the reset values fail. -/
theorem commandsAfterReset : Obligations.CommandsAfterReset := by
  intro x hx
  change FirstCommandAnswers x.1 x.2
  fin_cases hx
  iterate 8 exact firstCommandAnswers_bgRange rfl
  iterate 2 exact firstCommandAnswers_modulationOrder rfl
  · exact firstCommandAnswers_nop
  · exact firstCommandAnswers_clrerr

/-- Settles O50: the registers are at reset, and the fresh memory lists no byte. -/
theorem hardwareResetFreesMemories : Obligations.HardwareResetFreesMemories := by
  intro s
  have h := atReset_hardwareReset s
  exact ⟨_, rfl, h.readReg, rfl, h.busy, h.irq, rfl, Memory.fresh_wf _, Memory.readByte_fresh _⟩

end Sys2Proof.Machine
end
